-- ==== Sys2Proof/Word.lean ====
section
/-! DEFINITION. The word types of the CORE: XLEN = ILEN = 32 and NREGS = 32 (00_scope.md R4). -/

namespace Sys2Proof

/-- A register, the pc, an ALU operand or result, an instruction word, a data-memory word (R4: XLEN, ILEN). -/
abbrev Word := BitVec 32

/-- A byte as only a collaborator sees it: the core itself moves whole words (R33). -/
abbrev Byte := BitVec 8

/-- The index of a general register: a 5-bit field always names one of the 32 (R11). -/
abbrev RegIdx := Fin 32

end Sys2Proof
end

