-- ==== Sys2Proof/Config.lean ====
section
/-! DEFINITION. What an implementation of the CORE fixes: the named opcode and funct3 parameters of R4, the free
byte view of a collaborator, and the launch parameters the bootstrap loader supplies (R4, R23, R133). -/

namespace Sys2Proof

namespace Config

/-- OPC_LW (R4, D2). PRESUMED (RISC-V value, log 1); unsafe. -/
def opcLw : BitVec 7 := 0b0000011

/-- OPC_SW (R4, D2). PRESUMED (RISC-V value, log 1); unsafe. -/
def opcSw : BitVec 7 := 0b0100011

/-- OPC_R (R4, D2). PRESUMED (RISC-V value, log 1); unsafe. -/
def opcR : BitVec 7 := 0b0110011

/-- OPC_BEQ (R4, D2). PRESUMED (RISC-V value, log 1); unsafe. -/
def opcBeq : BitVec 7 := 0b1100011

/-- F3_ADDSUB (R4, D3). PRESUMED (RISC-V value, log 2); unsafe. -/
def f3AddSub : BitVec 3 := 0b000

/-- F3_SLT (R4, D3). PRESUMED (RISC-V value, log 2); unsafe. -/
def f3Slt : BitVec 3 := 0b010

/-- F3_OR (R4, D3). PRESUMED (RISC-V value, log 2); unsafe. -/
def f3Or : BitVec 3 := 0b110

/-- F3_AND (R4, D3). PRESUMED (RISC-V value, log 2); unsafe. -/
def f3And : BitVec 3 := 0b111

/-- The canonical funct3 an assembler emits for `lw` and `sw`; the core ignores it (R64). PRESUMED (log 24); safe. -/
def f3CanonLoadStore : BitVec 3 := 0b010

/-- The canonical funct3 an assembler emits for `beq`; the core ignores it (R64). PRESUMED (log 24); safe. -/
def f3CanonBeq : BitVec 3 := 0b000

/-- The canonical funct7 of every register-register word but SUB (R64). PRESUMED (log 24); safe. -/
def f7Canon : BitVec 7 := 0b0000000

/-- The canonical funct7 of SUB; only its bit 5 is ever read (R61, R64). PRESUMED (log 24); safe. -/
def f7Sub : BitVec 7 := 0b0100000

/-- HOST_BYTE_VIEW (R4, R33, D9): how a collaborator cuts a word into four bytes. The spec leaves it OPEN and no rule
of the core uses it, so it has no body: a free value (log 21); safe. -/
opaque hostByteView : Word → Fin 4 → Byte

end Config

/-- A range of data-memory word indices, `base` to `base + count - 1` (R4: "word-index ranges of data memory"). -/
structure IndexRange where
  base  : Nat
  count : Nat
deriving DecidableEq, Repr

/-- HOST_READ_REGION and HOST_WRITE_REGION are sets of word indices given by ranges (R4, D20). -/
abbrev Region := List IndexRange

/-- One collaborator write of one whole data-memory word (R39(a), R134, R135). -/
structure HostWrite where
  index : Nat
  value : Word
deriving DecidableEq, Repr

/-- The parameters of a launch (R4), as the bootstrap loader and the environment supply them (R23, R133). -/
structure Launch where
  /-- RESET_VECTOR: the pc before the first cycle (R4, R141). -/
  resetVector     : Word
  /-- REG_INIT: the 32 register values before the first cycle (R4, R23). -/
  regInit         : Vector Word 32
  /-- DMEM_INIT: (word index, word) pairs; a later pair replaces an earlier one of the same index (R4, R23). -/
  dmemInit        : List (Nat × Word)
  /-- IMEM with IMEM_DOM: (byte address, instruction word) pairs; the domain is the addresses listed (R4, R36). -/
  program         : List (Nat × Word)
  /-- DMEM_WORDS (R4: between 1 and 2^29). -/
  dmemWords       : Nat
  /-- HOST_READ_REGION (R4, D20). -/
  hostReadRegion  : Region
  /-- HOST_WRITE_REGION (R4, D20). -/
  hostWriteRegion : Region
  /-- The writes the collaborators will make before the first cycle, before the second, and so on (R134, R135). -/
  hostMoves       : List (List HostWrite)
deriving DecidableEq, Repr

/-- The bounds R4 puts on DMEM_WORDS. -/
abbrev dmemWordsAllowed (n : Nat) : Prop := 1 ≤ n ∧ n ≤ 2 ^ 29

/-- The reference value of RESET_VECTOR (R141, R142; D12, log 3). -/
def Config.referenceVector : Word := 0x00001000

/-- The two register values the reference bootstrap gives, over the thirty it does not (R142; D11, log 4). -/
def Config.withReferenceRegs (rest : Vector Word 32) : Vector Word 32 := (rest.set 5 6).set 9 0x2004

/-- The parameters of `State.reset`. The reset vector and the values of x5 and x9 are the reference values R23 states
(D12, D11; logs 3 and 4). DESIGN CHOICE, unsafe: the other thirty registers and every data word hold 0 (logs 4 and 5),
DMEM_WORDS is 0x4000, the size the spec's own vectors use (log 7), no instruction is loaded (log 6), and no
collaborator acts (log 8). -/
def Config.resetLaunch : Launch where
  resetVector     := Config.referenceVector
  regInit         := Config.withReferenceRegs (Vector.replicate 32 0)
  dmemInit        := []
  program         := []
  dmemWords       := 0x4000
  hostReadRegion  := []
  hostWriteRegion := []
  hostMoves       := []

end Sys2Proof
end

