-- ==== Sys2Proof/Syntax.lean ====
section
/-! DEFINITION. The instructions of CORE4: one constructor for each row of spec/opcode_table.json (R60, R61, R63). -/

namespace Sys2Proof

/-- An instruction with its operands as values. Bits that no rule reads (funct3 of LW, SW and BEQ; `instr[31]`,
`instr[29:25]` and, but for ADD and SUB, `instr[30]` of a register-register word) are no operands (R60, R61). -/
inductive Instr where
  /-- `lw rd, imm(rs1)` (R90); `imm` is `instr[31:20]` (R54). -/
  | lw (rd rs1 : RegIdx) (imm : BitVec 12)
  /-- `sw rs2, imm(rs1)` (R91); `imm` is `{instr[31:25], instr[11:7]}` (R55). -/
  | sw (rs2 rs1 : RegIdx) (imm : BitVec 12)
  /-- `add rd, rs1, rs2` (R100). -/
  | add (rd rs1 rs2 : RegIdx)
  /-- `sub rd, rs1, rs2` (R101). -/
  | sub (rd rs1 rs2 : RegIdx)
  /-- `slt rd, rs1, rs2`: the signed minimum (R102). -/
  | slt (rd rs1 rs2 : RegIdx)
  /-- `or rd, rs1, rs2`: a boolean 0 or 1 (R103). -/
  | or (rd rs1 rs2 : RegIdx)
  /-- `and rd, rs1, rs2`: a boolean 0 or 1 (R104). -/
  | and (rd rs1 rs2 : RegIdx)
  /-- The register-register word with funct3 0b001: adds (R105). -/
  | rdef001 (rd rs1 rs2 : RegIdx)
  /-- The register-register word with funct3 0b011: adds (R105). -/
  | rdef011 (rd rs1 rs2 : RegIdx)
  /-- The register-register word with funct3 0b100: adds (R105). -/
  | rdef100 (rd rs1 rs2 : RegIdx)
  /-- The register-register word with funct3 0b101: adds (R105). -/
  | rdef101 (rd rs1 rs2 : RegIdx)
  /-- `beq rs1, rs2, off` (R110); `off` is the 13-bit even byte offset (R56). -/
  | beq (rs1 rs2 : RegIdx) (off : BitVec 13)
  /-- A word with an unrecognised opcode, kept whole: an inert cycle (R115). -/
  | unknown (word : Word)
deriving DecidableEq, Repr

/-- The instruction's row of spec/opcode_table.json, by its mnemonic there. -/
def Instr.mnemonic : Instr → String
  | .lw _ _ _ => "LW"
  | .sw _ _ _ => "SW"
  | .add _ _ _ => "ADD"
  | .sub _ _ _ => "SUB"
  | .slt _ _ _ => "SLT"
  | .or _ _ _ => "OR"
  | .and _ _ _ => "AND"
  | .rdef001 _ _ _ => "RDEF_001"
  | .rdef011 _ _ _ => "RDEF_011"
  | .rdef100 _ _ _ => "RDEF_100"
  | .rdef101 _ _ _ => "RDEF_101"
  | .beq _ _ _ => "BEQ"
  | .unknown _ => "UNKNOWN"

end Sys2Proof
end

