-- ==== Sys2Proof/WellFormed.lean ====
section
/-! DEFINITION. Which instruction terms have an encoding: the branch offset is even (R56), and UNKNOWN holds a word
whose opcode is none of the four recognised ones (R62, R115). Register operands need no check (R11). -/

namespace Sys2Proof

/-- The four recognised opcodes (R60). -/
def recognisedOpcodes : List (BitVec 7) := [Config.opcLw, Config.opcSw, Config.opcR, Config.opcBeq]

/-- Every instruction of CORE4 that some word encodes. -/
def Instr.wf : Instr → Bool
  | .lw _ _ _ => true
  | .sw _ _ _ => true
  | .add _ _ _ => true
  | .sub _ _ _ => true
  | .slt _ _ _ => true
  | .or _ _ _ => true
  | .and _ _ _ => true
  | .rdef001 _ _ _ => true
  | .rdef011 _ _ _ => true
  | .rdef100 _ _ _ => true
  | .rdef101 _ _ _ => true
  | .beq _ _ off => !off.getLsbD 0
  | .unknown w => !recognisedOpcodes.contains (w.extractLsb' 0 7)

end Sys2Proof
end

