-- ==== Sys2Proof/Decode.lean ====
section
/-! DEFINITION. The BitField Extractor and Immediate Generator's assembly (R51 to R57), the total decoder (R60 to R63),
the opcode table as rows (spec/opcode_table.json), and the encoder (R58, R64). -/

namespace Sys2Proof

/-! ### Bit fields and sign extension -/

/-- `bits(w, hi, lo)`: the unsigned field `w[hi:lo]`, right-aligned (R52). -/
def bits (w : Word) (hi lo : Nat) : BitVec (hi - lo + 1) := w.extractLsb hi lo

/-- `sext_N(v)`: the 32-bit two's-complement value of an N-bit field (R53). -/
def sext {n : Nat} (v : BitVec n) : Word := v.signExtend 32

/-- `opcode` = `instr[6:0]` (R51). -/
def opcodeOf (w : Word) : BitVec 7 := bits w 6 0

/-- `funct3` = `instr[14:12]` (R51). -/
def funct3Of (w : Word) : BitVec 3 := bits w 14 12

/-- `funct7` = `instr[31:25]` (R51); only its bit 5 is ever read. -/
def funct7Of (w : Word) : BitVec 7 := bits w 31 25

/-- `rd` = `instr[11:7]` (R51). -/
def rdOf (w : Word) : RegIdx := (bits w 11 7).toFin

/-- `rs1` = `instr[19:15]` (R51). -/
def rs1Of (w : Word) : RegIdx := (bits w 19 15).toFin

/-- `rs2` = `instr[24:20]` (R51). -/
def rs2Of (w : Word) : RegIdx := (bits w 24 20).toFin

/-! ### Immediates: one sign extension, at the width the field was built with (R57) -/

/-- The 12-bit I-format field (R54). -/
def immIField (w : Word) : BitVec 12 := bits w 31 20

/-- The 12-bit S-format field, high bits first (R55). -/
def immSField (w : Word) : BitVec 12 := bits w 31 25 ++ bits w 11 7

/-- The 13-bit B-format field with its low bit forced to 0 (R56). -/
def immBField (w : Word) : BitVec 13 :=
  bits w 31 31 ++ bits w 7 7 ++ bits w 30 25 ++ bits w 11 8 ++ (0b0 : BitVec 1)

/-- `ImmI(instr)` (R54). -/
def immI (w : Word) : Word := sext (immIField w)

/-- `ImmS(instr)` (R55). -/
def immS (w : Word) : Word := sext (immSField w)

/-- `ImmB(instr)` (R56). -/
def immB (w : Word) : Word := sext (immBField w)

/-! ### The decoder -/

/-- Second-level decode, register-register opcode only (R61): funct3, and for the add/subtract pair `instr[30]`
together with `instr[5]` ("subtract only when both are set"). -/
def decodeRegReg (w : Word) : Instr :=
  if funct3Of w = Config.f3AddSub then
    if w.getLsbD 30 && w.getLsbD 5 then .sub (rdOf w) (rs1Of w) (rs2Of w)
    else .add (rdOf w) (rs1Of w) (rs2Of w)
  else if funct3Of w = Config.f3Slt then .slt (rdOf w) (rs1Of w) (rs2Of w)
  else if funct3Of w = Config.f3Or then .or (rdOf w) (rs1Of w) (rs2Of w)
  else if funct3Of w = Config.f3And then .and (rdOf w) (rs1Of w) (rs2Of w)
  else if funct3Of w = 0b001 then .rdef001 (rdOf w) (rs1Of w) (rs2Of w)
  else if funct3Of w = 0b011 then .rdef011 (rdOf w) (rs1Of w) (rs2Of w)
  else if funct3Of w = 0b100 then .rdef100 (rdOf w) (rs1Of w) (rs2Of w)
  else .rdef101 (rdOf w) (rs1Of w) (rs2Of w)

/-- First-level decode by the opcode alone; every word has an instruction and the last arm is UNKNOWN, never a
refusal (R60, R62, R63). -/
def decode (w : Word) : Instr :=
  if opcodeOf w = Config.opcLw then .lw (rdOf w) (rs1Of w) (immIField w)
  else if opcodeOf w = Config.opcSw then .sw (rs2Of w) (rs1Of w) (immSField w)
  else if opcodeOf w = Config.opcR then decodeRegReg w
  else if opcodeOf w = Config.opcBeq then .beq (rs1Of w) (rs2Of w) (immBField w)
  else .unknown w

/-- Why a bit pattern that is not one instruction word is turned away: the only length is 32 bits (R50). No 32-bit
word is ever turned away (R62). -/
inductive DecodeError where
  /-- More bits than the one instruction length has. -/
  | longerThanOneWord (nbits : Nat)
  /-- The number does not fit in the bits it is said to have. -/
  | valueTooWide (nbits value : Nat)
deriving DecidableEq, Repr

/-- The instruction of `nbits` bits with the value `w`, the bits above `nbits` zero (R50: one length, 32 bits). -/
def decodeBits (nbits w : Nat) : Except DecodeError Instr :=
  if 32 < nbits then .error (.longerThanOneWord nbits)
  else if 2 ^ nbits ≤ w then .error (.valueTooWide nbits w)
  else .ok (decode (BitVec.ofNat 32 w))

/-- The host's view of the decoder: the instruction that the table's `nbits` bits `w` decode to. -/
def decodeTableWord (nbits w : Nat) : Option Instr :=
  match decodeBits nbits w with
  | .ok i => some i
  | .error _ => none

/-! ### The opcode table -/

/-- A row of spec/opcode_table.json: a word belongs to it when its bits under `mask` are `pattern`. -/
structure OpcodeRow where
  mnemonic : String
  pattern  : Word
  mask     : Word
deriving DecidableEq, Repr

/-- The word matches the row. -/
def OpcodeRow.covers (r : OpcodeRow) (w : Word) : Bool := w &&& r.mask == r.pattern

/-- The twelve match/mask rows; the thirteenth row, UNKNOWN, applies to every word none of them covers (R115). -/
def opcodeRows : List OpcodeRow :=
  [ ⟨"LW",       0x00000003, 0x0000007F⟩,
    ⟨"SW",       0x00000023, 0x0000007F⟩,
    ⟨"ADD",      0x00000033, 0x4000707F⟩,
    ⟨"SUB",      0x40000033, 0x4000707F⟩,
    ⟨"SLT",      0x00002033, 0x0000707F⟩,
    ⟨"OR",       0x00006033, 0x0000707F⟩,
    ⟨"AND",      0x00007033, 0x0000707F⟩,
    ⟨"RDEF_001", 0x00001033, 0x0000707F⟩,
    ⟨"RDEF_011", 0x00003033, 0x0000707F⟩,
    ⟨"RDEF_100", 0x00004033, 0x0000707F⟩,
    ⟨"RDEF_101", 0x00005033, 0x0000707F⟩,
    ⟨"BEQ",      0x00000063, 0x0000007F⟩ ]

/-- The mnemonics of the rows that cover a word, UNKNOWN when there is none. -/
def tableMnemonics (w : Word) : List String :=
  match (opcodeRows.filter (·.covers w)).map OpcodeRow.mnemonic with
  | [] => ["UNKNOWN"]
  | ms => ms

/-! ### The encoder -/

/-- A register index as its 5-bit field. -/
def regBits (r : RegIdx) : BitVec 5 := BitVec.ofFin r

/-- The R-format layout (R58). -/
def encodeRegReg (funct7 : BitVec 7) (funct3 : BitVec 3) (rd rs1 rs2 : RegIdx) : Word :=
  funct7 ++ regBits rs2 ++ regBits rs1 ++ funct3 ++ regBits rd ++ Config.opcR

/-- The canonical word of an instruction (R58, R64; log 24): the bits the core ignores are those an assembler emits,
and UNKNOWN is its own word. -/
def encode : Instr → Word
  | .lw rd rs1 imm => imm ++ regBits rs1 ++ Config.f3CanonLoadStore ++ regBits rd ++ Config.opcLw
  | .sw rs2 rs1 imm =>
    imm.extractLsb 11 5 ++ regBits rs2 ++ regBits rs1 ++ Config.f3CanonLoadStore ++ imm.extractLsb 4 0 ++ Config.opcSw
  | .add rd rs1 rs2 => encodeRegReg Config.f7Canon Config.f3AddSub rd rs1 rs2
  | .sub rd rs1 rs2 => encodeRegReg Config.f7Sub Config.f3AddSub rd rs1 rs2
  | .slt rd rs1 rs2 => encodeRegReg Config.f7Canon Config.f3Slt rd rs1 rs2
  | .or rd rs1 rs2 => encodeRegReg Config.f7Canon Config.f3Or rd rs1 rs2
  | .and rd rs1 rs2 => encodeRegReg Config.f7Canon Config.f3And rd rs1 rs2
  | .rdef001 rd rs1 rs2 => encodeRegReg Config.f7Canon 0b001 rd rs1 rs2
  | .rdef011 rd rs1 rs2 => encodeRegReg Config.f7Canon 0b011 rd rs1 rs2
  | .rdef100 rd rs1 rs2 => encodeRegReg Config.f7Canon 0b100 rd rs1 rs2
  | .rdef101 rd rs1 rs2 => encodeRegReg Config.f7Canon 0b101 rd rs1 rs2
  | .beq rs1 rs2 off =>
    off.extractLsb 12 12 ++ off.extractLsb 10 5 ++ regBits rs2 ++ regBits rs1 ++ Config.f3CanonBeq ++
      off.extractLsb 4 1 ++ off.extractLsb 11 11 ++ Config.opcBeq
  | .unknown w => w

/-- The opcode the words of an instruction carry (R60). -/
def Instr.opcode : Instr → BitVec 7
  | .lw _ _ _ => Config.opcLw
  | .sw _ _ _ => Config.opcSw
  | .add _ _ _ => Config.opcR
  | .sub _ _ _ => Config.opcR
  | .slt _ _ _ => Config.opcR
  | .or _ _ _ => Config.opcR
  | .and _ _ _ => Config.opcR
  | .rdef001 _ _ _ => Config.opcR
  | .rdef011 _ _ _ => Config.opcR
  | .rdef100 _ _ _ => Config.opcR
  | .rdef101 _ _ _ => Config.opcR
  | .beq _ _ _ => Config.opcBeq
  | .unknown w => opcodeOf w

/-- The bits of an instruction's words that decoding reads: all but the `x` of its row's "encoding" in
spec/opcode_table.json (R58, R60, R61). UNKNOWN keeps its whole word. -/
def Instr.decodedBits : Instr → Word
  | .lw _ _ _ => 0xFFFF8FFF
  | .sw _ _ _ => 0xFFFF8FFF
  | .add _ _ _ => 0x41FFFFFF
  | .sub _ _ _ => 0x41FFFFFF
  | .slt _ _ _ => 0x01FFFFFF
  | .or _ _ _ => 0x01FFFFFF
  | .and _ _ _ => 0x01FFFFFF
  | .rdef001 _ _ _ => 0x01FFFFFF
  | .rdef011 _ _ _ => 0x01FFFFFF
  | .rdef100 _ _ _ => 0x01FFFFFF
  | .rdef101 _ _ _ => 0x01FFFFFF
  | .beq _ _ _ => 0xFFFF8FFF
  | .unknown _ => 0xFFFFFFFF

end Sys2Proof
end

