-- ==== Sys2Proof/Machine/Alu.lean ====
section
/-! DEFINITION. The ALU Decoder (R73) and the ALU with its five operations (R74 to R79). -/

namespace Sys2Proof.Machine

/-- The ALU-op-class of the control bundle (R70). -/
inductive AluOp where
  | addClass
  | branchCmpClass
  | rtypeClass
deriving DecidableEq, Repr

/-- The ALU control code (R73). -/
inductive AluCode where
  | add
  | subtract
  | logicalAnd
  | logicalOr
  | setLessThan
deriving DecidableEq, Repr

/-- The ALU Decoder: the concrete control code for an op-class and an instruction word (R73). -/
def aluDecode (op : AluOp) (w : Word) : AluCode :=
  match op with
  | .addClass => .add
  | .branchCmpClass => .subtract
  | .rtypeClass =>
    if funct3Of w = Config.f3AddSub then
      if w.getLsbD 30 && w.getLsbD 5 then .subtract else .add
    else if funct3Of w = Config.f3Slt then .setLessThan
    else if funct3Of w = Config.f3Or then .logicalOr
    else if funct3Of w = Config.f3And then .logicalAnd
    else .add

/-- ALU add: `A +32 B` (R74). -/
def aluAdd (a b : Word) : Word := a + b

/-- ALU subtract: `A -32 B` (R75; the modulus is D16, log 18). -/
def aluSubtract (a b : Word) : Word := a - b

/-- ALU logical-and: the boolean 1 when both operands are non-zero, else 0 (R76). -/
def aluLogicalAnd (a b : Word) : Word := if a ≠ 0 ∧ b ≠ 0 then 1 else 0

/-- ALU logical-or: the boolean 1 when an operand is non-zero, else 0 (R77). -/
def aluLogicalOr (a b : Word) : Word := if a ≠ 0 ∨ b ≠ 0 then 1 else 0

/-- ALU set-less-than: the smaller operand under signed comparison (R78). -/
def aluSetLessThan (a b : Word) : Word := if a.toInt < b.toInt then a else b

/-- The ALU: "pure function of its three inputs" (R79). -/
def alu (a b : Word) (code : AluCode) : Word :=
  match code with
  | .add => aluAdd a b
  | .subtract => aluSubtract a b
  | .logicalAnd => aluLogicalAnd a b
  | .logicalOr => aluLogicalOr a b
  | .setLessThan => aluSetLessThan a b

end Sys2Proof.Machine
end

