-- ==== Sys2Proof/Machine/Control.lean ====
section
/-! DEFINITION. The Control Decoder: the seven-signal bundle of an opcode (R70, R71, R72), and the Immediate Generator
it steers (R59). -/

namespace Sys2Proof.Machine

/-- The format of the immediate (R70). -/
inductive ImmFmt where
  | formatI
  | formatS
  | formatB
deriving DecidableEq, Repr

/-- Where ALU operand B comes from (R70). -/
inductive AluSrc where
  | register
  | immediate
deriving DecidableEq, Repr

/-- Where the write-back value comes from (R70). -/
inductive ResultSrc where
  | aluResult
  | memory
deriving DecidableEq, Repr

/-- The control-signal bundle (R70). -/
structure Control where
  regWrite  : Bool
  immFmt    : ImmFmt
  aluSrc    : AluSrc
  memWrite  : Bool
  resultSrc : ResultSrc
  branch    : Bool
  aluOp     : AluOp
deriving DecidableEq, Repr

/-- The inert bundle of every unrecognised opcode (R72; its three enum cells are D5, log 20). -/
def inertControl : Control :=
  ⟨false, .formatI, .register, false, .aluResult, false, .addClass⟩

/-- The Control Decoder: "pure function from a 7-bit opcode to the control-signal bundle" (R71; the cells no program
can observe are D4 and D5, log 20). -/
def controlDecode (opc : BitVec 7) : Control :=
  if opc = Config.opcLw then ⟨true, .formatI, .immediate, false, .memory, false, .addClass⟩
  else if opc = Config.opcSw then ⟨false, .formatS, .immediate, true, .aluResult, false, .addClass⟩
  else if opc = Config.opcR then ⟨true, .formatI, .register, false, .aluResult, false, .rtypeClass⟩
  else if opc = Config.opcBeq then ⟨false, .formatB, .register, false, .aluResult, true, .branchCmpClass⟩
  else inertControl

/-- The Immediate Generator: the immediate of the word in the bundle's format (R59). -/
def immGen (w : Word) (fmt : ImmFmt) : Word :=
  match fmt with
  | .formatI => immI w
  | .formatS => immS w
  | .formatB => immB w

end Sys2Proof.Machine
end

