-- ==== Sys2Proof/Machine/Operands.lean ====
section
/-! DEFINITION. The operand forms: ALU operand B (R80 step 5), the one addressing mode, base register plus immediate
(R90, R91), the data word index (R31) and the two next-pc candidates (R83). -/

namespace Sys2Proof.Machine

/-- Step 5: "register value if alu-source = register, else the generated immediate" (R80). -/
def operandB (src : AluSrc) (reg imm : Word) : Word :=
  match src with
  | .register => reg
  | .immediate => imm

/-- The byte address of LW and SW: base plus sign-extended 12-bit immediate, modulo 2^32 (R90, R91). -/
def effectiveAddr (base : Word) (imm : BitVec 12) : Word := aluAdd base (sext imm)

/-- The data word index of a byte address: `addr[31:2]`, the two low bits dropped (R31; the logical shift is D14,
log 11). -/
def wordIndex (addr : Word) : Nat := (bits addr 31 2).toNat

/-- The pc of the next instruction in memory: `pc +32 4` (R83; the wrap is D13, log 17). -/
def sequentialPc (pc : Word) : Word := pc + 4

/-- The target of a taken branch: `pc +32 sext_13(off)` (R83, R110; the wrap is D13, log 17). -/
def branchTarget (pc : Word) (off : BitVec 13) : Word := pc + sext off

end Sys2Proof.Machine
end

