-- ==== Sys2Proof/Machine/Memory.lean ====
section
/-! DEFINITION. A sparse memory of 32-bit words as plain data: the data memory by word index (R22, R31) and the
instruction memory by byte address (R21, R36). Words, not bytes: R33 (log 9). -/

namespace Sys2Proof.Machine

/-- (key, word) pairs, keys strictly rising. -/
abbrev Memory := List (Nat × Word)

/-- What a data word that is not listed reads as: 0. DESIGN CHOICE (log 5), unsafe: the spec states no initial value
but the loader's, and every DMEM_INIT is a listing over this value. -/
def unlistedWord : Word := 0

/-- The word listed under a key. -/
def Memory.wordAt? : Memory → Nat → Option Word
  | [], _ => none
  | (a, v) :: m, k => if k = a then some v else Memory.wordAt? m k

/-- List `v` under `k`, in place of any word listed there. -/
def Memory.put : Memory → Nat → Word → Memory
  | [], k, v => [(k, v)]
  | (a, u) :: m, k, v =>
    if k < a then (k, v) :: (a, u) :: m
    else if k = a then (k, v) :: m
    else (a, u) :: Memory.put m k v

/-- Take every listing under `k` out. -/
def Memory.remove : Memory → Nat → Memory
  | [], _ => []
  | (a, u) :: m, k => if k = a then Memory.remove m k else (a, u) :: Memory.remove m k

/-- Read a data word: the listed one, else `unlistedWord`. -/
def Memory.read (m : Memory) (k : Nat) : Word := (m.wordAt? k).getD unlistedWord

/-- Write a data word, keeping the canonical form: a word equal to `unlistedWord` is not listed. -/
def Memory.store (m : Memory) (k : Nat) (v : Word) : Memory :=
  if v = unlistedWord then Memory.remove m k else Memory.put m k v

/-- Keys strictly rise. -/
abbrev Memory.rising (m : Memory) : Prop := List.Pairwise (fun a b => a.1 < b.1) m

/-- The canonical form of a data memory: keys strictly rise and no listed word equals what an unlisted one reads as. -/
abbrev Memory.wf (m : Memory) : Prop := Memory.rising m ∧ ∀ c ∈ m, c.2 ≠ unlistedWord

/-- Every listed word index is one of DMEM_WORDS (R4, R31). -/
abbrev Memory.below (m : Memory) (n : Nat) : Prop := ∀ c ∈ m, c.1 < n

/-- A byte address at which instruction memory can hold a word: a multiple of 4 within 32 bits (R4: IMEM_DOM). -/
abbrev isCodeAddress (a : Nat) : Prop := a % 4 = 0 ∧ a < 2 ^ 32

/-- The canonical form of an instruction memory: keys strictly rise and each is a code address. -/
abbrev Memory.wfCode (m : Memory) : Prop := Memory.rising m ∧ ∀ c ∈ m, isCodeAddress c.1

/-- The data memory DMEM_INIT describes: its pairs stored in order, those with a valid word index (R4, R23). -/
def Memory.ofDataPairs (n : Nat) (ps : List (Nat × Word)) : Memory :=
  ps.foldl (fun m c => if c.1 < n then Memory.store m c.1 c.2 else m) []

/-- The instruction memory a program describes: its pairs listed in order, those at a code address (R4, R36). -/
def Memory.ofCodePairs (ps : List (Nat × Word)) : Memory :=
  ps.foldl (fun m c => if isCodeAddress c.1 then Memory.put m c.1 c.2 else m) []

/-- The word index lies in one of the region's ranges (R4, D20). -/
def regionHas (r : Region) (k : Nat) : Bool :=
  r.any fun g => decide (g.base ≤ k) && decide (k < g.base + g.count)

end Sys2Proof.Machine
end

