-- ==== Sys2Proof/Machine/State.lean ====
section
/-! DEFINITION. The state of the CORE (R10, R25), the parameters a run carries unchanged (R4, R8; log 10), the
collaborators' coming writes (R134, R135; log 15), the launch state (R23) and the reset state. -/

namespace Sys2Proof.Machine

/-- The three model faults (R121, R122, R123). Each ends the cycle before it has changed anything (R124); each is safe:
the original, whose behaviour there is "undefined by design", might go on (U1, U2, U3). -/
inductive Fault where
  /-- Step 1, the pc is a multiple of 4 outside IMEM_DOM; records the pc (R121; D8, log 13). Safe. -/
  | fetchOutOfRange (pc : Word)
  /-- Step 1, the pc is no multiple of 4; records the pc (R122; D7, log 12). Safe. -/
  | fetchMisaligned (pc : Word)
  /-- Step 7 of SW or step 8 of LW, the word index is not below DMEM_WORDS; records the byte address (R123; D6,
  log 11). Safe. -/
  | dataOutOfRange (addr : Word)
deriving DecidableEq, Repr

/-- Reasons to give an instruction no meaning. The decoder is total and every word has a defined meaning (R62), so no
meaning and no step raises one. -/
inductive Refusal where
  /-- An arm of `exec` that has no meaning yet, by its mnemonic. Safe. No arm raises it. -/
  | notModelled (mnemonic : String)
deriving DecidableEq, Repr

/-- The state of the machine. -/
structure State where
  /-- The program counter: a byte address into instruction memory (R16). -/
  pc : Word
  /-- The register file `x[0] .. x[31]`; register 0 is an ordinary register (R11, R12). -/
  regs : Vector Word 32
  /-- The data memory, by word index (R22, R31). -/
  dmem : Memory
  /-- The instruction memory with its domain, by byte address; no step writes it (R21, R36, R37). -/
  imem : Memory
  /-- DMEM_WORDS; no step writes it (R4). -/
  dmemWords : Nat
  /-- HOST_READ_REGION; no step writes it (R4). -/
  hostReadRegion : Region
  /-- HOST_WRITE_REGION; no step writes it (R4). -/
  hostWriteRegion : Region
  /-- The model's own field: the collaborators' writes before the next cycle, before the one after it, and so on
  (R134, R135; log 15). -/
  hostInbox : List (List HostWrite)
  /-- The mark `halted` with its cause and recorded value, `none` while running (R25, R86, R124; log 14). -/
  halted : Option Fault
deriving DecidableEq, Repr

/-- The launch state of R23: "all core state ... is initialized once before the first cycle". -/
def State.launch (p : Launch) : State where
  pc := p.resetVector
  regs := p.regInit
  dmem := Memory.ofDataPairs p.dmemWords p.dmemInit
  imem := Memory.ofCodePairs p.program
  dmemWords := p.dmemWords
  hostReadRegion := p.hostReadRegion
  hostWriteRegion := p.hostWriteRegion
  hostInbox := p.hostMoves
  halted := none

/-- The machine right after reset: the launch state of `Config.resetLaunch` (R23, R140, R141; logs 3 to 8). -/
def State.reset : State := State.launch Config.resetLaunch

end Sys2Proof.Machine
end

