-- ==== Sys2Proof/Machine/Ops.lean ====
section
/-! DEFINITION. The named operations over registers, pc and memories, and the raising of a fault. The CORE has no
exception: no trap entry (R128) and no return from one (R129), so `raise` and `State.halt` are all there is. -/

namespace Sys2Proof.Machine

/-- `x[i]` (R14): all 32 bits, register 0 like any other (R12). -/
def State.readReg (s : State) (r : RegIdx) : Word := s.regs[r.val]

/-- `x[i] <- v` (R13): all 32 bits, register 0 like any other (R12). -/
def State.writeReg (s : State) (r : RegIdx) (v : Word) : State := { s with regs := s.regs.set r.val v }

/-- `pc <- target` (R16), unchecked: the check is the next fetch's (R17). -/
def State.setPc (s : State) (target : Word) : State := { s with pc := target }

/-- `pc <- pc +32 4` (R83). -/
def State.advancePc (s : State) : State := s.setPc (sequentialPc s.pc)

/-- The data-memory word of an index, as a read finds it (R22, R31). -/
def State.dataWord (s : State) (k : Nat) : Word := Memory.read s.dmem k

/-- Replace the data-memory word of an index (R22, R31). -/
def State.setDataWord (s : State) (k : Nat) (v : Word) : State := { s with dmem := Memory.store s.dmem k v }

/-- `MemRead(addr, 4)` (R31, R123). -/
def State.memRead (s : State) (addr : Word) : Except Fault Word :=
  if wordIndex addr < s.dmemWords then .ok (s.dataWord (wordIndex addr)) else .error (.dataOutOfRange addr)

/-- `MemWrite(addr, 4, v)` (R31, R123). -/
def State.memWrite (s : State) (addr v : Word) : Except Fault State :=
  if wordIndex addr < s.dmemWords then .ok (s.setDataWord (wordIndex addr) v) else .error (.dataOutOfRange addr)

/-- `FetchWord(a)`: misalignment is checked before the range (R36, R121, R122). -/
def State.fetchWord (s : State) (a : Word) : Except Fault Word :=
  if bits a 1 0 ≠ 0 then .error (.fetchMisaligned a)
  else
    match Memory.wordAt? s.imem a.toNat with
    | some w => .ok w
    | none => .error (.fetchOutOfRange a)

/-- `raise <Fault>(info)`: the cycle ends and commits nothing (R124; log 14). -/
def raise (r : Fault) : Host.Outcome State Fault Refusal := .fault r

/-- Go on with the value of an access, or raise its fault (R124). -/
def attempt {α : Type} (e : Except Fault α) (k : α → Host.Outcome State Fault Refusal) :
    Host.Outcome State Fault Refusal :=
  match e with
  | .ok a => k a
  | .error r => raise r

/-- The halted state a fault leaves: the mark with its cause, everything else as it was (R124). -/
def State.halt (s : State) (r : Fault) : State := { s with halted := some r }

end Sys2Proof.Machine
end

