-- ==== Sys2Proof/Machine/Collaborators.lean ====
section
/-! DEFINITION. What the collaborators do to a running core and what they see of it (R133 to R136, R39, R42). -/

namespace Sys2Proof.Machine

/-- One collaborator write of a whole word. The model gives the host no move outside HOST_WRITE_REGION or data memory,
so such a request changes nothing (R134; log 15). -/
def State.hostWrite (s : State) (h : HostWrite) : State :=
  if regionHas s.hostWriteRegion h.index && decide (h.index < s.dmemWords) then s.setDataWord h.index h.value else s

/-- The collaborators' turn between two cycles: the writes due now land in their order (R39, R134, R135). -/
def State.hostTurn (s : State) : State :=
  match s.hostInbox with
  | [] => s
  | due :: later => due.foldl State.hostWrite { s with hostInbox := later }

/-- The host reads any data-memory word at any time; nothing changes (R134, R42). -/
def State.hostRead (s : State) (k : Nat) : Option Word :=
  if k < s.dmemWords then some (s.dataWord k) else none

/-- The display refresher reads its fixed range only (R136). -/
def State.displayWord (s : State) (k : Nat) : Option Word :=
  if regionHas s.hostReadRegion k then s.hostRead k else none

/-- One of the four bytes a collaborator sees in a word, by the free HOST_BYTE_VIEW (R33, R136; log 21). -/
def State.hostReadByte (s : State) (k : Nat) (j : Fin 4) : Option Byte :=
  (s.hostRead k).map fun w => Config.hostByteView w j

end Sys2Proof.Machine
end

