-- ==== Sys2Proof/Machine/Flags.lean ====
section
/-! DEFINITION. The one flag of the CORE: the zero flag, transient within a cycle (R18). -/

namespace Sys2Proof.Machine

/-- `Zero = (ALUResult == 0)`, all 32 bits zero (R18, R79). -/
def zeroFlag (result : Word) : Bool := result == 0

end Sys2Proof.Machine
end

