-- ==== Sys2Proof/Machine/Branch.lean ====
section
/-! DEFINITION. Branch if equal (43_branch.md). -/

namespace Sys2Proof.Machine

/-- BEQ (R110): the ALU subtracts, and the zero flag of the difference selects the next pc. -/
def execBeq (rs1 rs2 : RegIdx) (off : BitVec 13) (s : State) : Host.Outcome State Fault Refusal :=
  if zeroFlag (alu (s.readReg rs1) (s.readReg rs2) .subtract) then .next (s.setPc (branchTarget s.pc off))
  else .next s.advancePc

end Sys2Proof.Machine
end

