-- ==== Sys2Proof/Machine/Inert.lean ====
section
/-! DEFINITION. Words with an unrecognised opcode (44_unknown_opcode.md). -/

namespace Sys2Proof.Machine

/-- UNKNOWN (R115): only the pc changes. The sum and the zero flag the cycle also computes reach no state (R72). -/
def execUnknown (_word : Word) (s : State) : Host.Outcome State Fault Refusal := .next s.advancePc

end Sys2Proof.Machine
end

