-- ==== Sys2Proof/Machine/LoadStore.lean ====
section
/-! DEFINITION. Load word and store word (41_load_store.md). -/

namespace Sys2Proof.Machine

/-- LW (R90). -/
def execLw (rd rs1 : RegIdx) (imm : BitVec 12) (s : State) : Host.Outcome State Fault Refusal :=
  attempt (s.memRead (effectiveAddr (s.readReg rs1) imm)) fun v => .next (s.writeReg rd v).advancePc

/-- SW (R91). -/
def execSw (rs2 rs1 : RegIdx) (imm : BitVec 12) (s : State) : Host.Outcome State Fault Refusal :=
  attempt (s.memWrite (effectiveAddr (s.readReg rs1) imm) (s.readReg rs2)) fun t => .next t.advancePc

end Sys2Proof.Machine
end

