-- ==== Sys2Proof/Machine/RegReg.lean ====
section
/-! DEFINITION. The register-register instructions (42_rtype_alu.md). -/

namespace Sys2Proof.Machine

/-- What the register-register instructions share: both operands are read, then rd is written (R14), then the pc
advances. -/
def regReg (code : AluCode) (rd rs1 rs2 : RegIdx) (s : State) : Host.Outcome State Fault Refusal :=
  .next (s.writeReg rd (alu (s.readReg rs1) (s.readReg rs2) code)).advancePc

/-- ADD (R100). -/
def execAdd (rd rs1 rs2 : RegIdx) (s : State) : Host.Outcome State Fault Refusal := regReg .add rd rs1 rs2 s

/-- SUB (R101). -/
def execSub (rd rs1 rs2 : RegIdx) (s : State) : Host.Outcome State Fault Refusal := regReg .subtract rd rs1 rs2 s

/-- SLT: the signed minimum (R102). -/
def execSlt (rd rs1 rs2 : RegIdx) (s : State) : Host.Outcome State Fault Refusal := regReg .setLessThan rd rs1 rs2 s

/-- OR: boolean (R103). -/
def execOr (rd rs1 rs2 : RegIdx) (s : State) : Host.Outcome State Fault Refusal := regReg .logicalOr rd rs1 rs2 s

/-- AND: boolean (R104). -/
def execAnd (rd rs1 rs2 : RegIdx) (s : State) : Host.Outcome State Fault Refusal := regReg .logicalAnd rd rs1 rs2 s

/-- RDEF with funct3 0b001 (R105). -/
def execRdef001 (rd rs1 rs2 : RegIdx) (s : State) : Host.Outcome State Fault Refusal := regReg .add rd rs1 rs2 s

/-- RDEF with funct3 0b011 (R105). -/
def execRdef011 (rd rs1 rs2 : RegIdx) (s : State) : Host.Outcome State Fault Refusal := regReg .add rd rs1 rs2 s

/-- RDEF with funct3 0b100 (R105). -/
def execRdef100 (rd rs1 rs2 : RegIdx) (s : State) : Host.Outcome State Fault Refusal := regReg .add rd rs1 rs2 s

/-- RDEF with funct3 0b101 (R105). -/
def execRdef101 (rd rs1 rs2 : RegIdx) (s : State) : Host.Outcome State Fault Refusal := regReg .add rd rs1 rs2 s

end Sys2Proof.Machine
end

