-- ==== Sys2Proof/Machine/Dispatch.lean ====
section
/-! DEFINITION. The meaning of each instruction, one arm for each constructor. -/

namespace Sys2Proof.Machine

/-- Run one instruction at a state. -/
def exec (i : Instr) (s : State) : Host.Outcome State Fault Refusal :=
  match i with
  | .lw rd rs1 imm => Sys2Proof.Machine.execLw rd rs1 imm s
  | .sw rs2 rs1 imm => Sys2Proof.Machine.execSw rs2 rs1 imm s
  | .add rd rs1 rs2 => Sys2Proof.Machine.execAdd rd rs1 rs2 s
  | .sub rd rs1 rs2 => Sys2Proof.Machine.execSub rd rs1 rs2 s
  | .slt rd rs1 rs2 => Sys2Proof.Machine.execSlt rd rs1 rs2 s
  | .or rd rs1 rs2 => Sys2Proof.Machine.execOr rd rs1 rs2 s
  | .and rd rs1 rs2 => Sys2Proof.Machine.execAnd rd rs1 rs2 s
  | .rdef001 rd rs1 rs2 => Sys2Proof.Machine.execRdef001 rd rs1 rs2 s
  | .rdef011 rd rs1 rs2 => Sys2Proof.Machine.execRdef011 rd rs1 rs2 s
  | .rdef100 rd rs1 rs2 => Sys2Proof.Machine.execRdef100 rd rs1 rs2 s
  | .rdef101 rd rs1 rs2 => Sys2Proof.Machine.execRdef101 rd rs1 rs2 s
  | .beq rs1 rs2 off => Sys2Proof.Machine.execBeq rs1 rs2 off s
  | .unknown word => Sys2Proof.Machine.execUnknown word s

end Sys2Proof.Machine
end

