-- ==== Sys2Proof/Machine/Step.lean ====
section
/-! DEFINITION. The step, the spec's "execute one cycle" with its sticky halted mark, and the host's way to place an
instruction. -/

namespace Sys2Proof.Machine

/-- One cycle: nothing when halted (R86); else the collaborators' turn (R39, R134), the fetch at the pc (R36), and the
decoded instruction (R60, R61). A fault is an outcome here; `cycle` gives the halted state it leaves (R124; log 14). -/
def step (s : State) : Host.Outcome State Fault Refusal :=
  match s.halted with
  | some _ => .next s
  | none => attempt (s.hostTurn.fetchWord s.hostTurn.pc) fun w => exec (decode w) s.hostTurn

/-- "Execute one cycle" (R80, R82) as a function of the state alone: a faulting cycle commits nothing and halts the
core (R124). -/
def cycle (s : State) : State :=
  match step s with
  | .next t => t
  | .fault r => s.hostTurn.halt r
  | .refused _ => s

/-- N_CYCLES invocations of "execute one cycle" (R137; log 23). -/
def cycles : Nat → State → State
  | 0, s => s
  | n + 1, s => cycles n (cycle s)

/-- The state with the `nbits` bits `w` placed as the instruction word at the pc, where the next step fetches: the
loader's act (R133; log 6). Bits above `nbits` are zero. -/
def State.withFetchWord (s : State) (nbits w : Nat) : State :=
  { s with imem := Memory.put s.imem s.pc.toNat (BitVec.ofNat 32 (w % 2 ^ nbits)) }

end Sys2Proof.Machine
end

