-- ==== Sys2Proof/Machine/Reference.lean ====
section
/-! DEFINITION. The reference launch of the source's scenario: the seed state and the program at 0x1000, as far as the
source gives them (R142, R23, R38). What the source does not give is an argument. -/

namespace Sys2Proof.Machine

/-- What "data_memory[0x2000]" means, which the spec leaves open with both readings recorded (C1; log 27). -/
inductive SeedReading where
  /-- Reading B, the intended one: 0x2000 is a byte address. -/
  | byteAddress
  /-- Reading A, the literal one: 0x2000 is a word index. -/
  | wordIndex
deriving DecidableEq, Repr

/-- Which operation the scenario's "and/or-class op" is, which the source does not say (R142; log 27). -/
inductive AndOrChoice where
  | orOp
  | andOp
deriving DecidableEq, Repr

/-- The data word that holds the seed under a reading (C1). -/
def SeedReading.index : SeedReading → Nat
  | .byteAddress => 0x800
  | .wordIndex => 0x2000

/-- "and/or-class op x4,x5,x6" (R142). -/
def AndOrChoice.instr : AndOrChoice → Instr
  | .orOp => .or 4 5 6
  | .andOp => .and 4 5 6

/-- The four instructions at 0x1000 to 0x100C (R142, R38), encoded by R58 (the source gives no word). -/
def referenceProgram (third : AndOrChoice) : List (Nat × Word) :=
  [ (0x1000, encode (.lw 6 9 0xFFC)),
    (0x1004, encode (.sw 6 9 0x000)),
    (0x1008, encode third.instr),
    (0x100C, encode (.beq 4 0 0x1FF0)) ]

/-- The reference launch (R142) over a launch `p` that supplies all the source does not give: the other thirty
registers, every other data and instruction word, the sizes, the regions and the host's moves. -/
def referenceLaunch (seed : SeedReading) (third : AndOrChoice) (p : Launch) : Launch :=
  { p with
    resetVector := Config.referenceVector
    regInit := Config.withReferenceRegs p.regInit
    dmemInit := p.dmemInit ++ [(seed.index, 10)]
    program := p.program ++ referenceProgram third }

end Sys2Proof.Machine
end

