-- ==== Sys2Proof/Machine/Datapath.lean ====
section
/-! DEFINITION. The Execution Cycle Driver as R80 writes it: the eleven steps over the raw instruction word, the
control bundle and the ALU, with no instruction decoded. Where a rule of files 41 to 44 "and rule R80 could be read
differently, rule R80 ... is the definition" (40_datapath.md). Also the port signals of R85. -/

namespace Sys2Proof.Machine

/-- The transient values of a cycle, recomputed in each one and held in no state (R8, R19). -/
structure Signals where
  ctl  : Control
  imm  : Word
  a    : Word
  r2   : Word
  b    : Word
  code : AluCode
  res  : Word
  zero : Bool
deriving DecidableEq, Repr

/-- Steps 2 to 6: decode the opcode, build the immediate, read both registers, select operand B, run the ALU, capture
the zero flag (R80). -/
def State.signals (s : State) (w : Word) : Signals :=
  let ctl := controlDecode (opcodeOf w)
  let imm := immGen w ctl.immFmt
  let a := s.readReg (rs1Of w)
  let r2 := s.readReg (rs2Of w)
  let b := operandB ctl.aluSrc r2 imm
  let code := aluDecode ctl.aluOp w
  let res := alu a b code
  ⟨ctl, imm, a, r2, b, code, res, zeroFlag res⟩

/-- Step 7: store the second source register's value if memory-write is asserted (R80). -/
def State.storeStep (s : State) (g : Signals) : Except Fault State :=
  if g.ctl.memWrite then s.memWrite g.res g.r2 else .ok s

/-- Step 8: the write-back value, loaded if result-source is memory, else the raw ALU result (R80). -/
def State.resultStep (s : State) (g : Signals) : Except Fault Word :=
  match g.ctl.resultSrc with
  | .memory => s.memRead g.res
  | .aluResult => .ok g.res

/-- Step 9: write rd if register-write is asserted (R80). -/
def State.writebackStep (s : State) (w : Word) (g : Signals) (wb : Word) : State :=
  if g.ctl.regWrite then s.writeReg (rdOf w) wb else s

/-- Step 10: `pc +32 4`, or `pc +32 Imm` when branch-enable is asserted and the zero flag is set (R80, R83). -/
def nextPc (pc : Word) (g : Signals) : Word := if g.ctl.branch && g.zero then pc + g.imm else pc + 4

/-- Steps 2 to 11 of a cycle on the fetched word (R80). -/
def State.datapath (s : State) (w : Word) : Host.Outcome State Fault Refusal :=
  let g := s.signals w
  attempt (s.storeStep g) fun s7 =>
    attempt (s7.resultStep g) fun wb =>
      .next ((s7.writebackStep w g wb).setPc (nextPc s.pc g))

/-- "One externally-triggered step = one full cycle" (R80), after the collaborators' turn (R39, R134): nothing when
halted (R86), else step 1 and then steps 2 to 11. -/
def datapathStep (s : State) : Host.Outcome State Fault Refusal :=
  match s.halted with
  | some _ => .next s
  | none => attempt (s.hostTurn.fetchWord s.hostTurn.pc) fun w => s.hostTurn.datapath w

/-- The core's output ports while it executes a word (R85: this spec's rendering, D25; log 25). R85 gives `fault_cause`
two bits and no coding of the causes. DESIGN CHOICE (log 25), safe: `faultCause` shows the fault itself with its
recorded value, and `none` where there is no fault; no bit pattern is chosen for a cause. -/
structure Ports where
  imemAddr   : Word
  dmemAddr   : BitVec 30
  dmemWdata  : Word
  dmemWe     : Bool
  dmemRe     : Bool
  halted     : Bool
  faultCause : Option Fault
deriving DecidableEq, Repr

/-- The port signals of the cycle that executes `w` at the state (R85; log 25). -/
def State.ports (s : State) (w : Word) : Ports where
  imemAddr   := s.pc
  dmemAddr   := bits (s.signals w).res 31 2
  dmemWdata  := (s.signals w).r2
  dmemWe     := (s.signals w).ctl.memWrite
  dmemRe     := (s.signals w).ctl.resultSrc == .memory
  halted     := s.halted.isSome
  faultCause := s.halted

end Sys2Proof.Machine
end

