-- ==== Sys2Proof/Safety.lean ====
section
/-! DEFINITION. The terms claims about the CORE are stated in: the invariant, what a cycle leaves unchanged, which
instruction a cycle executes, and when a cycle completes (R124, R137, R145). -/

namespace Sys2Proof.Machine

/-- What every reachable state keeps: both memories in their canonical form, every listed data word inside DMEM_WORDS,
DMEM_WORDS within the bounds of R4, and bit 0 of the pc clear (R17(c)). -/
structure State.Inv (s : State) : Prop where
  dataCanonical : Memory.wf s.dmem
  dataInRange   : Memory.below s.dmem s.dmemWords
  codeCanonical : Memory.wfCode s.imem
  sizeAllowed   : dmemWordsAllowed s.dmemWords
  pcEven        : s.pc.getLsbD 0 = false

/-- Every register but `rd` reads as before. -/
def SameRegsExcept (rd : RegIdx) (s t : State) : Prop := ∀ r, r ≠ rd → t.readReg r = s.readReg r

/-- Every register reads as before. -/
def SameRegs (s t : State) : Prop := ∀ r, t.readReg r = s.readReg r

/-- Every data-memory word but that of index `k` reads as before. -/
def SameDataExcept (k : Nat) (s t : State) : Prop := ∀ j, j ≠ k → t.dataWord j = s.dataWord j

/-- Every data-memory word reads as before. -/
def SameData (s t : State) : Prop := ∀ j, t.dataWord j = s.dataWord j

/-- Instruction memory, the parameters, the collaborators' coming writes and the halted mark are as before. -/
structure SameEnvironment (s t : State) : Prop where
  imem            : t.imem = s.imem
  dmemWords       : t.dmemWords = s.dmemWords
  hostReadRegion  : t.hostReadRegion = s.hostReadRegion
  hostWriteRegion : t.hostWriteRegion = s.hostWriteRegion
  hostInbox       : t.hostInbox = s.hostInbox
  halted          : t.halted = s.halted

/-- The next cycle of `s` fetches the word `w`: the core is not halted, and after the collaborators' turn the fetch at
the pc gives `w` (R36, R80 step 1). -/
def State.fetches (s : State) (w : Word) : Prop :=
  s.halted = none ∧ s.hostTurn.fetchWord s.hostTurn.pc = .ok w

/-- The next cycle of `s` executes the instruction `i`. -/
def State.executes (s : State) (i : Instr) : Prop := ∃ w, s.fetches w ∧ decode w = i

/-- The data access of an instruction, where it makes one, is inside data memory (R35, R123). -/
def Instr.accessInRange (s : State) : Instr → Prop
  | .lw _ rs1 imm => wordIndex (effectiveAddr (s.readReg rs1) imm) < s.dmemWords
  | .sw _ rs1 imm => wordIndex (effectiveAddr (s.readReg rs1) imm) < s.dmemWords
  | .add _ _ _ => True
  | .sub _ _ _ => True
  | .slt _ _ _ => True
  | .or _ _ _ => True
  | .and _ _ _ => True
  | .rdef001 _ _ _ => True
  | .rdef011 _ _ _ => True
  | .rdef100 _ _ _ => True
  | .rdef101 _ _ _ => True
  | .beq _ _ _ => True
  | .unknown _ => True

/-- The register-register instructions on one set of operands, each with the ALU operation it performs (R100 to
R105). -/
def regRegForms (rd rs1 rs2 : RegIdx) : List (Instr × AluCode) :=
  [ (.add rd rs1 rs2, .add), (.sub rd rs1 rs2, .subtract), (.slt rd rs1 rs2, .setLessThan),
    (.or rd rs1 rs2, .logicalOr), (.and rd rs1 rs2, .logicalAnd), (.rdef001 rd rs1 rs2, .add),
    (.rdef011 rd rs1 rs2, .add), (.rdef100 rd rs1 rs2, .add), (.rdef101 rd rs1 rs2, .add) ]

/-- What must hold for one cycle to complete (R145(a)): the pc is populated and the data access is in range. -/
def State.ready (s : State) : Prop := ∃ i, s.executes i ∧ Instr.accessInRange s.hostTurn i

/-- The next cycle of `s` stores to the data word of index `k` (R91). -/
def State.storesTo (s : State) (k : Nat) : Prop :=
  ∃ rs2 rs1 imm, s.executes (.sw rs2 rs1 imm) ∧ wordIndex (effectiveAddr (s.hostTurn.readReg rs1) imm) = k

/-- A collaborator asks to write the data word of index `k` in its turn before the next cycle (R135). -/
def State.hostWritesTo (s : State) (k : Nat) : Prop :=
  ∃ due later h, s.hostInbox = due :: later ∧ h ∈ due ∧ h.index = k

/-- A run of `n` cycles that has not gone wrong: no cycle of it faulted (R124, R137). -/
def State.runsSafely (s : State) (n : Nat) : Prop := (cycles n s).halted = none

end Sys2Proof.Machine
end

