-- ==== Sys2Proof/Certificates/Slice0/Obligations.lean ====
section
/-! DEFINITION. The statements for the provers. Each docstring names the rules it formalises; "D<n>" is a decision of
the spec's own (92_eei_decisions.md) and "log <n>" the model's assumption log. -/

open Sys2Proof Sys2Proof.Machine

/-! ### Encoding -/

/-- Every well-formed instruction is read back from its own word (R58, R60, R61, R63, R64; logs 1, 2, 24). -/
def Obligations.DecodeInvertsEncode : Prop :=
  ∀ i : Instr, i.wf = true → decode (encode i) = i

/-- Encoding what a word decodes to gives back every bit of the word that decoding reads (R51, R58). -/
def Obligations.EncodeKeepsEveryDecodedBit : Prop :=
  ∀ w : Word, encode (decode w) &&& (decode w).decodedBits = w &&& (decode w).decodedBits

/-- The bits decoding does not read take no part in it: funct3 of LW, SW and BEQ, and the unread funct7 bits of the
register-register words (R60, R61, R63). -/
def Obligations.IgnoredBitsTakeNoPartInDecoding : Prop :=
  ∀ w w' : Word, w' &&& (decode w).decodedBits = w &&& (decode w).decodedBits → decode w' = decode w

/-- Decoding yields well-formed instructions only: even branch offsets (R56) and no recognised opcode under UNKNOWN
(R115). -/
def Obligations.DecodedInstructionsAreWellFormed : Prop :=
  ∀ w : Word, (decode w).wf = true

/-- The rows of the opcode table partition the words: exactly one row applies to each word, UNKNOWN when no match/mask
row does, and it is the row of the decoded instruction (R63, R115; the numbers are D2 and D3, logs 1 and 2). -/
def Obligations.OpcodeTablePartitionsTheWords : Prop :=
  ∀ w : Word, tableMnemonics w = [(decode w).mnemonic]

/-- Words the spec spells out decode to the instructions it names (95_test_vectors.md T1, T3; logs 1, 2). -/
def Obligations.SpecWordsDecodeAsNamed : Prop :=
  decode 0xFFC4A303 = .lw 6 9 0xFFC ∧ decode 0x0064A423 = .sw 6 9 8 ∧
  decode 0x002081B3 = .add 3 1 2 ∧ decode 0x402081B3 = .sub 3 1 2 ∧
  decode 0x4020A1B3 = .slt 3 1 2 ∧ decode 0x0062E233 = .or 4 5 6 ∧ decode 0x0062F233 = .and 4 5 6 ∧
  decode 0x002091B3 = .rdef001 3 1 2 ∧ decode 0x0020B1B3 = .rdef011 3 1 2 ∧
  decode 0x0020C1B3 = .rdef100 3 1 2 ∧ decode 0x4020D1B3 = .rdef101 3 1 2 ∧
  decode 0xFE0208E3 = .beq 4 0 0x1FF0 ∧ decode 0x00500093 = .unknown 0x00500093

/-- The RISC-V opcodes outside the four recognised ones, and every word whose low two bits are not 11, decode to
UNKNOWN (R116, R112, R125, R50; the opcode numbers are general knowledge, log 1). -/
def Obligations.UnimplementedRiscvWordsAreUnknown : Prop :=
  ∀ w : Word,
    opcodeOf w ∈ ([0x13, 0x37, 0x17, 0x6F, 0x67, 0x0F, 0x73, 0x2F, 0x07, 0x27, 0x43, 0x47, 0x4B, 0x4F, 0x53, 0x1B,
      0x3B, 0x57, 0x0B, 0x2B, 0x5B, 0x7B] : List (BitVec 7)) ∨ bits w 1 0 ≠ (0b11 : BitVec 2) →
    decode w = .unknown w

/-! ### Bit fields and immediates -/

/-- `bits(w, hi, lo) = floor(w / 2^lo) mod 2^(hi-lo+1)`, the full width included (R52). -/
def Obligations.BitFieldIsQuotientAndRemainder : Prop :=
  (∀ (w : Word) (hi lo : Nat), lo ≤ hi → hi ≤ 31 →
    (bits w hi lo).toNat = w.toNat / 2 ^ lo % 2 ^ (hi - lo + 1) ∧ (bits w hi lo).toNat < 2 ^ (hi - lo + 1)) ∧
  ∀ w : Word, (bits w 31 0).toNat = w.toNat

/-- `sext_N(v)` is `v` below `2^(N-1)` and `v + 2^32 - 2^N` otherwise; its low N bits are `v` and every higher bit is
bit N-1 of `v` (R53). -/
def Obligations.SignExtensionIsTwosComplement : Prop :=
  ∀ (n : Nat) (v : BitVec n), 1 ≤ n → n ≤ 32 →
    (sext v).toNat = (if v.toNat < 2 ^ (n - 1) then v.toNat else v.toNat + 2 ^ 32 - 2 ^ n) ∧
    (∀ i, i < n → (sext v).getLsbD i = v.getLsbD i) ∧
    ∀ i, n ≤ i → i < 32 → (sext v).getLsbD i = v.getLsbD (n - 1)

/-- ImmI: bits 31:20 as a signed 12-bit value, unscaled (R54). -/
def Obligations.ImmediateIIsItsSignedField : Prop :=
  (∀ w : Word,
    (immI w).toInt = (bits w 31 20).toNat - (if w.getLsbD 31 then 4096 else 0) ∧
    -2048 ≤ (immI w).toInt ∧ (immI w).toInt ≤ 2047) ∧
  immI 0xFFC4A303 = 0xFFFFFFFC

/-- ImmS: bits 31:25 above bits 11:7 as a signed 12-bit value (R55). -/
def Obligations.ImmediateSIsItsSignedField : Prop :=
  (∀ w : Word,
    (immS w).toInt = (bits w 31 25).toNat * 32 + (bits w 11 7).toNat - (if w.getLsbD 31 then 4096 else 0) ∧
    -2048 ≤ (immS w).toInt ∧ (immS w).toInt ≤ 2047) ∧
  immS 0x0064A423 = 8

/-- ImmB: the split 13-bit value with bit 0 forced to 0, sign-extended once, so an offset with instr[31] = 0 and
instr[7] = 1 stays positive (R56, R57); it is the unscaled branch offset (R110). The single extension is D18 (log 19)
and the wrap of the pc sum D13 (log 17). -/
def Obligations.ImmediateBIsItsSignedField : Prop :=
  (∀ w : Word,
    (immB w).toInt =
      (if w.getLsbD 7 then 2048 else 0) + (bits w 30 25).toNat * 32 + (bits w 11 8).toNat * 2
        - (if w.getLsbD 31 then 4096 else 0) ∧
    (immB w).toInt % 2 = 0 ∧ -4096 ≤ (immB w).toInt ∧ (immB w).toInt ≤ 4094 ∧
    ∀ pc : Word, branchTarget pc (immBField w) = pc + immB w) ∧
  immB 0xFE0208E3 = 0xFFFFFFF0

/-- The Immediate Generator recovers the value an encoder put into the I, S and B layouts, for every register operand
(property S2 of 95_test_vectors.md; R54, R55, R56). -/
def Obligations.EncodedImmediatesAreRecovered : Prop :=
  (∀ (rd rs1 : RegIdx) (v : BitVec 12), immGen (encode (.lw rd rs1 v)) .formatI = sext v) ∧
  (∀ (rs2 rs1 : RegIdx) (v : BitVec 12), immGen (encode (.sw rs2 rs1 v)) .formatS = sext v) ∧
  ∀ (rs1 rs2 : RegIdx) (off : BitVec 13), off.getLsbD 0 = false → immGen (encode (.beq rs1 rs2 off)) .formatB = sext off

/-! ### Control Decoder, ALU Decoder, ALU -/

/-- The bundle signal by signal, over all 128 opcodes: which opcodes write a register, store, load, branch, use the
immediate, and pick each op-class, so no cycle both stores and loads; every other opcode has the inert bundle
(R71, R72, R13, R40; the unobservable cells are D4 and D5, log 20). -/
def Obligations.ControlSignalsByOpcode : Prop :=
  ∀ opc : BitVec 7,
    ((controlDecode opc).regWrite = true ↔ opc = Config.opcLw ∨ opc = Config.opcR) ∧
    ((controlDecode opc).memWrite = true ↔ opc = Config.opcSw) ∧
    ((controlDecode opc).resultSrc = .memory ↔ opc = Config.opcLw) ∧
    ((controlDecode opc).branch = true ↔ opc = Config.opcBeq) ∧
    ((controlDecode opc).aluSrc = .immediate ↔ opc = Config.opcLw ∨ opc = Config.opcSw) ∧
    ((controlDecode opc).aluOp = .rtypeClass ↔ opc = Config.opcR) ∧
    ((controlDecode opc).aluOp = .branchCmpClass ↔ opc = Config.opcBeq) ∧
    ((controlDecode opc).immFmt = .formatS ↔ opc = Config.opcSw) ∧
    ((controlDecode opc).immFmt = .formatB ↔ opc = Config.opcBeq) ∧
    (opc ∉ recognisedOpcodes → controlDecode opc = inertControl)

/-- The ALU Decoder's contract: fixed codes for the two fixed classes whatever the word, and for the rtype-class the
code of each funct3, subtract only when instr[30] and instr[5] are both set, add for any other funct3 (R73). -/
def Obligations.AluDecoderContract : Prop :=
  ∀ w : Word,
    aluDecode .addClass w = .add ∧
    aluDecode .branchCmpClass w = .subtract ∧
    (funct3Of w = Config.f3AddSub → w.getLsbD 30 = true ∧ w.getLsbD 5 = true → aluDecode .rtypeClass w = .subtract) ∧
    (funct3Of w = Config.f3AddSub → ¬ (w.getLsbD 30 = true ∧ w.getLsbD 5 = true) → aluDecode .rtypeClass w = .add) ∧
    (funct3Of w = Config.f3Slt → aluDecode .rtypeClass w = .setLessThan) ∧
    (funct3Of w = Config.f3Or → aluDecode .rtypeClass w = .logicalOr) ∧
    (funct3Of w = Config.f3And → aluDecode .rtypeClass w = .logicalAnd) ∧
    (funct3Of w ∉ [Config.f3AddSub, Config.f3Slt, Config.f3Or, Config.f3And] → aluDecode .rtypeClass w = .add)

/-- ALU add is the low 32 bits of the sum; overflow wraps silently (R74). -/
def Obligations.AluAddIsTheSumModulo : Prop :=
  (∀ a b : Word, (alu a b .add).toNat = (a.toNat + b.toNat) % 2 ^ 32) ∧
  alu 0x7FFFFFFF 1 .add = 0x80000000 ∧ alu 0xFFFFFFFF 1 .add = 0 ∧ zeroFlag (alu 0xFFFFFFFF 1 .add) = true

/-- ALU subtract is the difference modulo 2^32 (the modulus is decision D16, log 18), and its zero flag is set exactly
when the operands are equal (R75, R18). -/
def Obligations.AluSubtractZeroExactlyOnEqual : Prop :=
  ∀ a b : Word,
    ((alu a b .subtract).toNat : Int) = ((a.toNat : Int) - (b.toNat : Int)) % 2 ^ 32 ∧
    (zeroFlag (alu a b .subtract) = true ↔ a = b)

/-- ALU logical-and and logical-or return the booleans 1 and 0, not bitwise results (R76, R77). -/
def Obligations.AluLogicalResultsAreBooleans : Prop :=
  (∀ a b : Word,
    (a ≠ 0 → b ≠ 0 → alu a b .logicalAnd = 0x00000001) ∧
    (¬ (a ≠ 0 ∧ b ≠ 0) → alu a b .logicalAnd = 0x00000000) ∧
    (a ≠ 0 ∨ b ≠ 0 → alu a b .logicalOr = 0x00000001) ∧
    (¬ (a ≠ 0 ∨ b ≠ 0) → alu a b .logicalOr = 0x00000000)) ∧
  alu 2 4 .logicalAnd = 1 ∧ alu 0xF0 0x3C .logicalAnd = 1 ∧ alu 6 10 .logicalOr = 1

/-- ALU set-less-than returns the smaller operand under signed comparison; equal operands give that value (R78). -/
def Obligations.AluSetLessThanIsSignedMinimum : Prop :=
  (∀ a b : Word,
    (a.toInt < b.toInt → alu a b .setLessThan = a) ∧ (¬ a.toInt < b.toInt → alu a b .setLessThan = b) ∧
    (alu a b .setLessThan).toInt = min a.toInt b.toInt) ∧
  alu 0xFFFFFFFF 1 .setLessThan = 0xFFFFFFFF ∧ alu 0x80000000 0x7FFFFFFF .setLessThan = 0x80000000 ∧
  zeroFlag (alu 0 5 .setLessThan) = true

/-! ### Instructions: effect, frame and completion -/

/-- LW: in range it completes, rd holds the word at `addr[31:2]`, the pc is `pc +32 4` (the wrap is D13, log 17) and
nothing else changes; out of range it raises DataOutOfRange of the byte address (D6, log 11) (R90). -/
def Obligations.LoadWordEffect : Prop :=
  ∀ (rd rs1 : RegIdx) (imm : BitVec 12) (s : State),
    (wordIndex (effectiveAddr (s.readReg rs1) imm) < s.dmemWords →
      ∃ t, exec (.lw rd rs1 imm) s = .next t ∧
        t.readReg rd = s.dataWord (wordIndex (effectiveAddr (s.readReg rs1) imm)) ∧
        SameRegsExcept rd s t ∧ t.pc = s.pc + 4 ∧ SameData s t ∧ SameEnvironment s t) ∧
    (s.dmemWords ≤ wordIndex (effectiveAddr (s.readReg rs1) imm) →
      exec (.lw rd rs1 imm) s = .fault (.dataOutOfRange (effectiveAddr (s.readReg rs1) imm)))

/-- SW: in range it completes, the word at `addr[31:2]` becomes x[rs2], every other data word and every register stay,
the pc is `pc +32 4` (D13, log 17); out of range it raises DataOutOfRange of the byte address (D6, log 11) (R91). -/
def Obligations.StoreWordEffect : Prop :=
  ∀ (rs2 rs1 : RegIdx) (imm : BitVec 12) (s : State),
    (wordIndex (effectiveAddr (s.readReg rs1) imm) < s.dmemWords →
      ∃ t, exec (.sw rs2 rs1 imm) s = .next t ∧
        t.dataWord (wordIndex (effectiveAddr (s.readReg rs1) imm)) = s.readReg rs2 ∧
        SameDataExcept (wordIndex (effectiveAddr (s.readReg rs1) imm)) s t ∧
        SameRegs s t ∧ t.pc = s.pc + 4 ∧ SameEnvironment s t) ∧
    (s.dmemWords ≤ wordIndex (effectiveAddr (s.readReg rs1) imm) →
      exec (.sw rs2 rs1 imm) s = .fault (.dataOutOfRange (effectiveAddr (s.readReg rs1) imm)))

/-- ADD: its words (by the named opcode and funct3 parameters) and, for every operand and state, the sum in rd, the pc
advanced and nothing else changed (R100). -/
def Obligations.AddEffect : Prop :=
  (∀ w : Word, opcodeOf w = Config.opcR → funct3Of w = Config.f3AddSub → w.getLsbD 30 = false →
    decode w = .add (rdOf w) (rs1Of w) (rs2Of w) ∧ aluDecode .rtypeClass w = .add) ∧
  ∀ (rd rs1 rs2 : RegIdx) (s : State), ∃ t, exec (.add rd rs1 rs2) s = .next t ∧
    (t.readReg rd).toNat = ((s.readReg rs1).toNat + (s.readReg rs2).toNat) % 2 ^ 32 ∧
    SameRegsExcept rd s t ∧ t.pc = s.pc + 4 ∧ SameData s t ∧ SameEnvironment s t

/-- SUB: its words and, for every operand and state, the difference modulo 2^32 (D16, log 18) in rd, 0 when rs1 and rs2
are one register, the pc advanced and nothing else changed (R101). -/
def Obligations.SubEffect : Prop :=
  (∀ w : Word, opcodeOf w = Config.opcR → funct3Of w = Config.f3AddSub → w.getLsbD 30 = true →
    decode w = .sub (rdOf w) (rs1Of w) (rs2Of w) ∧ aluDecode .rtypeClass w = .subtract) ∧
  ∀ (rd rs1 rs2 : RegIdx) (s : State), ∃ t, exec (.sub rd rs1 rs2) s = .next t ∧
    ((t.readReg rd).toNat : Int) = (((s.readReg rs1).toNat : Int) - ((s.readReg rs2).toNat : Int)) % 2 ^ 32 ∧
    (rs1 = rs2 → t.readReg rd = 0) ∧
    SameRegsExcept rd s t ∧ t.pc = s.pc + 4 ∧ SameData s t ∧ SameEnvironment s t

/-- SLT: its words and, for every operand and state, the signed minimum in rd, the pc advanced and nothing else changed
(R102). -/
def Obligations.SltEffect : Prop :=
  (∀ w : Word, opcodeOf w = Config.opcR → funct3Of w = Config.f3Slt →
    decode w = .slt (rdOf w) (rs1Of w) (rs2Of w) ∧ aluDecode .rtypeClass w = .setLessThan) ∧
  ∀ (rd rs1 rs2 : RegIdx) (s : State), ∃ t, exec (.slt rd rs1 rs2) s = .next t ∧
    t.readReg rd = (if (s.readReg rs1).toInt < (s.readReg rs2).toInt then s.readReg rs1 else s.readReg rs2) ∧
    SameRegsExcept rd s t ∧ t.pc = s.pc + 4 ∧ SameData s t ∧ SameEnvironment s t

/-- OR: its words and, for every operand and state, the boolean in rd, the pc advanced and nothing else changed
(R103). -/
def Obligations.OrEffect : Prop :=
  (∀ w : Word, opcodeOf w = Config.opcR → funct3Of w = Config.f3Or →
    decode w = .or (rdOf w) (rs1Of w) (rs2Of w) ∧ aluDecode .rtypeClass w = .logicalOr) ∧
  ∀ (rd rs1 rs2 : RegIdx) (s : State), ∃ t, exec (.or rd rs1 rs2) s = .next t ∧
    t.readReg rd = (if s.readReg rs1 ≠ 0 ∨ s.readReg rs2 ≠ 0 then 0x00000001 else 0x00000000) ∧
    SameRegsExcept rd s t ∧ t.pc = s.pc + 4 ∧ SameData s t ∧ SameEnvironment s t

/-- AND: its words and, for every operand and state, the boolean in rd, the pc advanced and nothing else changed
(R104). -/
def Obligations.AndEffect : Prop :=
  (∀ w : Word, opcodeOf w = Config.opcR → funct3Of w = Config.f3And →
    decode w = .and (rdOf w) (rs1Of w) (rs2Of w) ∧ aluDecode .rtypeClass w = .logicalAnd) ∧
  ∀ (rd rs1 rs2 : RegIdx) (s : State), ∃ t, exec (.and rd rs1 rs2) s = .next t ∧
    t.readReg rd = (if s.readReg rs1 ≠ 0 ∧ s.readReg rs2 ≠ 0 then 0x00000001 else 0x00000000) ∧
    SameRegsExcept rd s t ∧ t.pc = s.pc + 4 ∧ SameData s t ∧ SameEnvironment s t

/-- RDEF: the four unlisted funct3 values decode to the four RDEF rows, whatever funct7, and each adds: the sum in rd,
the pc advanced and nothing else changed (R105). -/
def Obligations.RdefEffect : Prop :=
  (∀ w : Word, opcodeOf w = Config.opcR →
    (funct3Of w = 0b001 → decode w = .rdef001 (rdOf w) (rs1Of w) (rs2Of w) ∧ aluDecode .rtypeClass w = .add) ∧
    (funct3Of w = 0b011 → decode w = .rdef011 (rdOf w) (rs1Of w) (rs2Of w) ∧ aluDecode .rtypeClass w = .add) ∧
    (funct3Of w = 0b100 → decode w = .rdef100 (rdOf w) (rs1Of w) (rs2Of w) ∧ aluDecode .rtypeClass w = .add) ∧
    (funct3Of w = 0b101 → decode w = .rdef101 (rdOf w) (rs1Of w) (rs2Of w) ∧ aluDecode .rtypeClass w = .add)) ∧
  ∀ (rd rs1 rs2 : RegIdx) (s : State) (i : Instr),
    i ∈ [.rdef001 rd rs1 rs2, .rdef011 rd rs1 rs2, .rdef100 rd rs1 rs2, .rdef101 rd rs1 rs2] →
    ∃ t, exec i s = .next t ∧
      (t.readReg rd).toNat = ((s.readReg rs1).toNat + (s.readReg rs2).toNat) % 2 ^ 32 ∧
      SameRegsExcept rd s t ∧ t.pc = s.pc + 4 ∧ SameData s t ∧ SameEnvironment s t

/-- BEQ: for every operand and state it completes, the pc is `pc +32 off` when x[rs1] = x[rs2] and `pc +32 4` otherwise
(the wrap is D13, log 17), and nothing else changes (R110). -/
def Obligations.BranchEqualEffect : Prop :=
  (∀ w : Word, opcodeOf w = Config.opcBeq → decode w = .beq (rs1Of w) (rs2Of w) (immBField w)) ∧
  ∀ (rs1 rs2 : RegIdx) (off : BitVec 13) (s : State), ∃ t, exec (.beq rs1 rs2 off) s = .next t ∧
    (s.readReg rs1 = s.readReg rs2 → t.pc = s.pc + sext off) ∧
    (s.readReg rs1 ≠ s.readReg rs2 → t.pc = s.pc + 4) ∧
    SameRegs s t ∧ SameData s t ∧ SameEnvironment s t

/-- UNKNOWN: every word outside the four opcodes decodes to it with the inert bundle (three of its cells are D5,
log 20), and for every word and state the cycle changes the pc alone, by 4 (R115, R72; property S1). -/
def Obligations.UnknownEffect : Prop :=
  (∀ w : Word, opcodeOf w ∉ recognisedOpcodes →
    decode w = .unknown w ∧ controlDecode (opcodeOf w) = inertControl) ∧
  ∀ (w : Word) (s : State), ∃ t, exec (.unknown w) s = .next t ∧
    t.pc = s.pc + 4 ∧ SameRegs s t ∧ SameData s t ∧ SameEnvironment s t

/-- Register 0 is ordinary: it holds what the loader or the last write left in it, and every instruction with a
destination writes it when rd is 0 (R12; C2, log 22). -/
def Obligations.RegisterZeroIsOrdinary : Prop :=
  (∀ p : Launch, (State.launch p).readReg 0 = p.regInit[0]) ∧
  (∀ (s : State) (v : Word), (s.writeReg 0 v).readReg 0 = v) ∧
  (∀ (rs1 : RegIdx) (imm : BitVec 12) (s : State),
    wordIndex (effectiveAddr (s.readReg rs1) imm) < s.dmemWords →
    ∃ t, exec (.lw 0 rs1 imm) s = .next t ∧
      t.readReg 0 = s.dataWord (wordIndex (effectiveAddr (s.readReg rs1) imm))) ∧
  ∀ (rs1 rs2 : RegIdx) (s : State) (i : Instr) (code : AluCode),
    (i, code) ∈ regRegForms 0 rs1 rs2 →
    ∃ t, exec i s = .next t ∧ t.readReg 0 = alu (s.readReg rs1) (s.readReg rs2) code

/-- An instruction whose destination is also a source computes with the old values and then overwrites it: a load over
its base (in range: D6, log 11), and every register-register instruction whose rd is rs1 or rs2 or both, the other
source free (R14, R151; subtract's modulus is D16, log 18). -/
def Obligations.SourcesAreReadBeforeTheDestinationIsWritten : Prop :=
  (∀ (r : RegIdx) (imm : BitVec 12) (s : State), wordIndex (s.readReg r + sext imm) < s.dmemWords →
    ∃ t, exec (.lw r r imm) s = .next t ∧ t.readReg r = s.dataWord (wordIndex (s.readReg r + sext imm))) ∧
  ∀ (rd rs1 rs2 : RegIdx) (s : State) (i : Instr) (code : AluCode),
    rd = rs1 ∨ rd = rs2 → (i, code) ∈ regRegForms rd rs1 rs2 →
    ∃ t, exec i s = .next t ∧ t.readReg rd = alu (s.readReg rs1) (s.readReg rs2) code

/-! ### Memory -/

/-- A data access uses the word of index `address / 4`: the four byte addresses of a word give one outcome, in range a
read gives the word and a write replaces it and no other, and out of range both raise DataOutOfRange (R31, R34, R35;
the logical shift is D14 and the fault D6, log 11). -/
def Obligations.DataAccessUsesTheWordOfItsAddress : Prop :=
  (∀ a : Word, wordIndex a = a.toNat / 4) ∧
  ∀ (s : State) (a v : Word),
    (a.toNat / 4 < s.dmemWords →
      s.memRead a = .ok (s.dataWord (a.toNat / 4)) ∧
      ∃ t, s.memWrite a v = .ok t ∧ t.dataWord (a.toNat / 4) = v ∧ SameDataExcept (a.toNat / 4) s t ∧
        t.regs = s.regs ∧ t.pc = s.pc ∧ SameEnvironment s t) ∧
    (s.dmemWords ≤ a.toNat / 4 →
      s.memRead a = .error (.dataOutOfRange a) ∧ s.memWrite a v = .error (.dataOutOfRange a))

/-- In a cycle that completes, a data word changes only by that cycle's own store to it or by a collaborator's write to
it (R39, R40, R84). -/
def Obligations.OnlyAStoreOrTheHostChangesADataWord : Prop :=
  ∀ (s t : State) (k : Nat), step s = .next t → ¬ s.storesTo k → ¬ s.hostWritesTo k → t.dataWord k = s.dataWord k

/-- The load/store round trip over runs of any length: after a store to word index k, as long as no later store and no
collaborator writes word k, a load from any address of word k completes and gives its destination the stored register's
value (R92, R40; property S5). -/
def Obligations.StoreThenLoadReturnsTheStoredWord : Prop :=
  ∀ (s s' : State) (rs2 rs1 : RegIdx) (imm : BitVec 12) (n : Nat) (rd rs1' : RegIdx) (imm' : BitVec 12) (k : Nat),
    s.executes (.sw rs2 rs1 imm) → wordIndex (effectiveAddr (s.hostTurn.readReg rs1) imm) = k → step s = .next s' →
    (∀ m, m < n → ¬ (cycles m s').storesTo k) → (∀ m, m ≤ n → ¬ (cycles m s').hostWritesTo k) →
    (cycles n s').executes (.lw rd rs1' imm') →
    wordIndex (effectiveAddr ((cycles n s').hostTurn.readReg rs1') imm') = k →
    ∃ t, step (cycles n s') = .next t ∧ t.readReg rd = s.hostTurn.readReg rs2

/-- No run of any length changes instruction memory or what a fetch returns (R37, R21), or a launch parameter (R4, R8;
that State holds the parameters as fields no step writes is the model's choice, log 10). -/
def Obligations.InstructionMemoryIsNeverWritten : Prop :=
  ∀ (n : Nat) (s : State),
    (cycles n s).imem = s.imem ∧ (∀ a, (cycles n s).fetchWord a = s.fetchWord a) ∧
    (cycles n s).dmemWords = s.dmemWords ∧ (cycles n s).hostReadRegion = s.hostReadRegion ∧
    (cycles n s).hostWriteRegion = s.hostWriteRegion

/-! ### The step -/

/-- A step of a running core is `exec` of the decoded instruction at the state after the collaborators' turn (R36, R80;
the turn is log 15). -/
def Obligations.StepRunsTheDecodedInstruction : Prop :=
  ∀ (s : State) (w : Word), s.halted = none → bits s.hostTurn.pc 1 0 = 0 →
    Memory.wordAt? s.hostTurn.imem s.hostTurn.pc.toNat = some w → step s = exec (decode w) s.hostTurn

/-- With nothing due from the collaborators, the turn before a cycle changes nothing, so a step of a running core is
`exec` of the decoded instruction at the state itself (R36, R80). -/
def Obligations.StepWithoutHostMovesRunsTheDecodedInstruction : Prop :=
  ∀ (s : State) (w : Word), s.halted = none → s.hostInbox = [] → bits s.pc 1 0 = 0 →
    Memory.wordAt? s.imem s.pc.toNat = some w → step s = exec (decode w) s

/-- The per-instruction meanings agree with the eleven-step datapath for every state and so for every word: decoding to
an instruction and running its meaning is the cycle of R80 over the raw word, control bundle and ALU (R80, R81). -/
def Obligations.StepIsTheElevenStepCycle : Prop :=
  ∀ s : State, step s = datapathStep s

/-- A running core's step completes exactly when the pc is populated and the instruction's data access is in range
(R145(a), R124). -/
def Obligations.StepCompletesExactlyWhenReady : Prop :=
  ∀ s : State, s.halted = none → ((∃ t, step s = .next t) ↔ s.ready)

/-- In a cycle that completes, the next pc is `pc +32 ImmB` when the word is a branch whose two registers are equal and
`pc +32 4` otherwise (R83, R111; the wrap is D13, log 17). -/
def Obligations.NextPcIsSequentialOrTakenBranch : Prop :=
  ∀ (s t : State) (w : Word), s.fetches w → step s = .next t →
    t.pc = if opcodeOf w = Config.opcBeq ∧ s.readReg (rs1Of w) = s.readReg (rs2Of w) then s.pc + immB w else s.pc + 4

/-- A cycle that completes changes at most one register, rd of a load or register-register word, and at most one data
word besides the collaborators' turn, the addressed word of a store (R84, R13). -/
def Obligations.OneCycleChangesOnlyItsTargets : Prop :=
  ∀ (s t : State) (w : Word), s.fetches w → step s = .next t →
    (∀ r, t.readReg r ≠ s.readReg r → r = rdOf w ∧ (opcodeOf w = Config.opcLw ∨ opcodeOf w = Config.opcR)) ∧
    (∀ k, t.dataWord k ≠ s.hostTurn.dataWord k →
      opcodeOf w = Config.opcSw ∧ k = wordIndex (s.readReg (rs1Of w) + immS w)) ∧
    SameEnvironment s.hostTurn t

/-- The port signals tell the data access of a cycle: no write strobe, no data word changes; a write strobe, the word at
the address port becomes the write data; a read strobe, rd receives the word at the address port; never both
(R85, R40; the rendering is D25, log 25). -/
def Obligations.PortsDescribeTheDataAccess : Prop :=
  ∀ (s t : State) (w : Word), s.datapath w = .next t →
    ((s.ports w).dmemWe = false → SameData s t) ∧
    ((s.ports w).dmemWe = true →
      t.dataWord (s.ports w).dmemAddr.toNat = (s.ports w).dmemWdata ∧ SameDataExcept (s.ports w).dmemAddr.toNat s t) ∧
    ((s.ports w).dmemRe = true → t.readReg (rdOf w) = s.dataWord (s.ports w).dmemAddr.toNat) ∧
    ¬ ((s.ports w).dmemWe = true ∧ (s.ports w).dmemRe = true)

/-! ### Faults and halting -/

/-- A running core whose pc is no multiple of 4 raises FetchMisaligned, and one whose aligned pc is not populated raises
FetchOutOfRange, each with the pc (R121, R122, R127; D7 and D8, logs 12 and 13). -/
def Obligations.FetchFaultsByAlignmentThenRange : Prop :=
  ∀ s : State, s.halted = none →
    (s.pc.toNat % 4 ≠ 0 → step s = .fault (.fetchMisaligned s.pc)) ∧
    (s.pc.toNat % 4 = 0 → Memory.wordAt? s.imem s.pc.toNat = none → step s = .fault (.fetchOutOfRange s.pc))

/-- A step faults in no other way than R121, R122 and R123 say: on a misaligned pc, on an unpopulated pc, or on a load
or store whose ALU result is out of range, with the recorded value each names (R120, R127; D6 to D8, logs 11 to 13). -/
def Obligations.StepFaultsOnlyAsTheRulesSay : Prop :=
  ∀ (s : State) (r : Fault), step s = .fault r → s.halted = none ∧
    ((r = .fetchMisaligned s.pc ∧ s.pc.toNat % 4 ≠ 0) ∨
     (r = .fetchOutOfRange s.pc ∧ s.pc.toNat % 4 = 0 ∧ Memory.wordAt? s.imem s.pc.toNat = none) ∨
     ∃ w, s.fetches w ∧ (opcodeOf w = Config.opcLw ∨ opcodeOf w = Config.opcSw) ∧
       r = .dataOutOfRange (s.hostTurn.signals w).res ∧ s.dmemWords ≤ wordIndex (s.hostTurn.signals w).res)

/-- No step is ever refused: every word decodes and every decoded instruction has a meaning; the all-zero and all-one
words are UNKNOWN (R62). -/
def Obligations.NoStepIsRefused : Prop :=
  (∀ (s : State) (r : Refusal), step s ≠ .refused r) ∧
  (∀ (i : Instr) (s : State) (r : Refusal), exec i s ≠ .refused r) ∧
  decode 0x00000000 = .unknown 0x00000000 ∧ decode 0xFFFFFFFF = .unknown 0xFFFFFFFF

/-- A faulting cycle commits nothing of its own, sets the mark with the cause and the recorded value, and every later
cycle changes nothing (R124, R86, R128; D17, log 14). -/
def Obligations.FaultCommitsNothingAndHaltsForGood : Prop :=
  (∀ (s : State) (r : Fault), step s = .fault r →
    (cycle s).halted = some r ∧ (cycle s).pc = s.pc ∧ SameRegs s (cycle s) ∧ SameData s.hostTurn (cycle s) ∧
    (cycle s).imem = s.imem) ∧
  ∀ (s : State) (r : Fault) (n : Nat), s.halted = some r → step s = .next s ∧ cycles n s = s

/-- The host's run and the spec's N_CYCLES agree: a run that goes through ends in the state of as many cycles, a run
that stops at a fault ends halted with that cause, no run is refused, and a run that ends unhalted went through
(R137, R124; logs 14, 23). -/
def Obligations.HostRunAgreesWithCycles : Prop :=
  ∀ (n : Nat) (s : State),
    (∀ t, Host.Core.run core n s = .next t → cycles n s = t) ∧
    (∀ r, Host.Core.run core n s = .fault r → (cycles n s).halted = some r) ∧
    (∀ r, Host.Core.run core n s ≠ .refused r) ∧
    (s.runsSafely n → Host.Core.run core n s = .next (cycles n s))

/-! ### Collaborators -/

/-- The collaborators' turn changes data words of HOST_WRITE_REGION below DMEM_WORDS only: no other data word, no
register, not the pc, not instruction memory, not the halted mark (R134, R135; D20, log 15). -/
def Obligations.HostTurnWritesOnlyItsRegion : Prop :=
  ∀ s : State,
    (∀ k, s.hostTurn.dataWord k ≠ s.dataWord k → regionHas s.hostWriteRegion k = true ∧ k < s.dmemWords) ∧
    s.hostTurn.pc = s.pc ∧ s.hostTurn.regs = s.regs ∧ s.hostTurn.imem = s.imem ∧ s.hostTurn.halted = s.halted ∧
    s.hostTurn.dmemWords = s.dmemWords ∧ s.hostTurn.hostWriteRegion = s.hostWriteRegion

/-- The collaborators may give a word of their region any value, and the last of several writes of one turn stands
(R39, R135; D10, D20, log 15). -/
def Obligations.LastHostWriteOfATurnStands : Prop :=
  ∀ (s : State) (before after : List HostWrite) (k : Nat) (v : Word) (later : List (List HostWrite)),
    regionHas s.hostWriteRegion k = true → k < s.dmemWords → (∀ h ∈ after, h.index ≠ k) →
    s.hostInbox = (before ++ ⟨k, v⟩ :: after) :: later →
    s.hostTurn.dataWord k = v ∧ s.hostTurn.hostInbox = later

/-- With HOST_WRITE_REGION empty the run is deterministic: whatever the collaborators ask for, every run from the same
core state reaches the same pc, registers, data memory and halted mark (R135). -/
def Obligations.EmptyHostRegionMakesRunsDeterministic : Prop :=
  ∀ (n : Nat) (s : State) (moves : List (List HostWrite)), s.hostWriteRegion = [] →
    (cycles n { s with hostInbox := moves }).pc = (cycles n s).pc ∧
    (cycles n { s with hostInbox := moves }).regs = (cycles n s).regs ∧
    (cycles n { s with hostInbox := moves }).dmem = (cycles n s).dmem ∧
    (cycles n { s with hostInbox := moves }).halted = (cycles n s).halted

/-! ### Launch, reset and the invariant -/

/-- The launch state holds the launch parameters: the pc at RESET_VECTOR, REG_INIT, each data word below DMEM_WORDS at
its last value in DMEM_INIT (0 where DMEM_INIT lists none: the model's choice, log 5), each code address at its last
word in the program and nothing elsewhere, not halted (R23, R140, R141). -/
def Obligations.LaunchHoldsItsParameters : Prop :=
  ∀ p : Launch,
    (State.launch p).pc = p.resetVector ∧ (∀ r : RegIdx, (State.launch p).readReg r = p.regInit[r.val]) ∧
    (∀ k, k < p.dmemWords →
      (State.launch p).dataWord k = ((p.dmemInit.reverse.find? (fun c => c.1 == k)).map Prod.snd).getD 0) ∧
    (∀ a, isCodeAddress a →
      Memory.wordAt? (State.launch p).imem a = (p.program.reverse.find? (fun c => c.1 == a)).map Prod.snd) ∧
    (∀ a, ¬ isCodeAddress a → Memory.wordAt? (State.launch p).imem a = none) ∧
    (State.launch p).halted = none

/-- The first instruction executed is the word at RESET_VECTOR (R141; D12, log 3): with no collaborator move, a launch
whose program has a word at an aligned reset vector first runs that word's instruction at the launch state. -/
def Obligations.FirstCycleRunsTheResetVectorWord : Prop :=
  ∀ (p : Launch) (w : Word), p.hostMoves = [] → p.resetVector.toNat % 4 = 0 →
    p.program.reverse.find? (fun c => c.1 == p.resetVector.toNat) = some (p.resetVector.toNat, w) →
    step (State.launch p) = exec (decode w) (State.launch p)

/-- The reset state: the reference pc and the two reference registers the spec states (R23, R142); the other registers,
the data words, the memory size and the empty program are the model's choices (logs 3 to 8). -/
def Obligations.ResetStateValues : Prop :=
  State.reset.pc = 0x00001000 ∧ State.reset.readReg 5 = 6 ∧ State.reset.readReg 9 = 0x2004 ∧
  (∀ r : RegIdx, r ≠ 5 → r ≠ 9 → State.reset.readReg r = 0) ∧ (∀ k, State.reset.dataWord k = 0) ∧
  State.reset.imem = [] ∧ State.reset.dmemWords = 0x4000 ∧ State.reset.halted = none ∧
  step State.reset = .fault (.fetchOutOfRange 0x00001000)

/-- The invariant holds of the reset state. The canonical form of its memories is the model's own representation
(log 9), and its reset vector, empty memories and DMEM_WORDS are the model's choices (logs 3, 5, 6, 7). -/
def Obligations.InvariantHoldsAtReset : Prop := State.reset.Inv

/-- The invariant holds of every launch whose DMEM_WORDS is allowed and whose reset vector is even (R4, R17(c)). Its
canonical memories are the model's own representation (log 9). -/
def Obligations.InvariantHoldsAtLaunch : Prop :=
  ∀ p : Launch, dmemWordsAllowed p.dmemWords → p.resetVector.getLsbD 0 = false → (State.launch p).Inv

/-- Every step keeps the invariant: data words in range (R31, R35), an allowed DMEM_WORDS (R4), an even pc (R17(c), R56),
and canonical memories, which are the model's own representation (log 9). -/
def Obligations.InvariantIsKeptByEveryStep : Prop :=
  ∀ s t : State, s.Inv → step s = .next t → t.Inv

/-- The canonical form makes equal memories equal data: two canonical data memories that read alike at every index are
the same list (R33; the model's own representation, log 9). -/
def Obligations.CanonicalMemoriesThatReadAlikeAreEqual : Prop :=
  ∀ m m' : Memory, Memory.wf m → Memory.wf m' → (∀ k, Memory.read m k = Memory.read m' k) → m = m'

/-- The reference launch holds what the source's scenario gives, under both readings of the seed (C1) and both third
instructions (log 27): the pc, x5, x9, the seed word (where DMEM_WORDS takes it in), the four instruction words at
0x1000 to 0x100C, and not halted; every other register, data word and instruction word is that of the launch it is
built over (R142, R23; the words' numbers are D2 and D3, logs 1 and 2, and canonical bits log 24). -/
def Obligations.ReferenceLaunchHoldsTheSeedState : Prop :=
  ∀ (seed : SeedReading) (third : AndOrChoice) (p : Launch) (s : State),
    s = State.launch (referenceLaunch seed third p) →
    s.pc = 0x00001000 ∧ s.readReg 5 = 6 ∧ s.readReg 9 = 0x2004 ∧
    (∀ r : RegIdx, r ≠ 5 → r ≠ 9 → s.readReg r = (State.launch p).readReg r) ∧
    (seed = .byteAddress → 0x800 < p.dmemWords → s.dataWord 0x800 = 10) ∧
    (seed = .wordIndex → 0x2000 < p.dmemWords → s.dataWord 0x2000 = 10) ∧
    (∀ k, k ≠ seed.index → s.dataWord k = (State.launch p).dataWord k) ∧
    s.fetchWord 0x1000 = .ok 0xFFC4A303 ∧ s.fetchWord 0x1004 = .ok 0x0064A023 ∧
    (third = .orOp → s.fetchWord 0x1008 = .ok 0x0062E233) ∧
    (third = .andOp → s.fetchWord 0x1008 = .ok 0x0062F233) ∧
    s.fetchWord 0x100C = .ok 0xFE0208E3 ∧
    (∀ a, a ∉ [0x1000, 0x1004, 0x1008, 0x100C] →
      Memory.wordAt? s.imem a = Memory.wordAt? (State.launch p).imem a) ∧
    s.halted = none
end

