-- ==== Sys2Proof/Laws/Encoding.lean ====
section
/-! SUPPORT. The fields of a word as arithmetic, and what each field of an encoded word is. -/

namespace Sys2Proof

/-- Concatenation as arithmetic: high bits first (R6). -/
theorem toNat_append_eq {m n : Nat} (x : BitVec m) (y : BitVec n) :
    (x ++ y).toNat = x.toNat * 2 ^ n + y.toNat := by
  rw [BitVec.toNat_append, ← Nat.shiftLeft_add_eq_or_of_lt y.isLt, Nat.shiftLeft_eq]

/-- The BitField Extractor as quotient and remainder (R52). -/
theorem toNat_bits (w : Word) (hi lo : Nat) : (bits w hi lo).toNat = w.toNat / 2 ^ lo % 2 ^ (hi - lo + 1) := by
  simp [bits, BitVec.extractLsb, BitVec.extractLsb'_toNat, Nat.shiftRight_eq_div_pow]

theorem toNat_extract {n : Nat} (v : BitVec n) (hi lo : Nat) :
    (v.extractLsb hi lo).toNat = v.toNat / 2 ^ lo % 2 ^ (hi - lo + 1) := by
  simp [BitVec.extractLsb, BitVec.extractLsb'_toNat, Nat.shiftRight_eq_div_pow]

theorem toNat_opcodeOf (w : Word) : (opcodeOf w).toNat = w.toNat % 128 := by
  simp [opcodeOf, toNat_bits]

theorem toNat_funct3Of (w : Word) : (funct3Of w).toNat = w.toNat / 4096 % 8 := toNat_bits w 14 12

theorem val_rdOf (w : Word) : (rdOf w).val = w.toNat / 128 % 32 := toNat_bits w 11 7

theorem val_rs1Of (w : Word) : (rs1Of w).val = w.toNat / 32768 % 32 := toNat_bits w 19 15

theorem val_rs2Of (w : Word) : (rs2Of w).val = w.toNat / 1048576 % 32 := toNat_bits w 24 20

theorem toNat_immIField (w : Word) : (immIField w).toNat = w.toNat / 1048576 := by
  have h : (immIField w).toNat = w.toNat / 1048576 % 4096 := toNat_bits w 31 20
  have := w.isLt
  omega

theorem toNat_immSField (w : Word) : (immSField w).toNat = w.toNat / 33554432 * 32 + w.toNat / 128 % 32 := by
  have h : (immSField w).toNat = (w.toNat / 33554432 % 128) * 32 + w.toNat / 128 % 32 := by
    rw [immSField, toNat_append_eq, toNat_bits, toNat_bits]
    rfl
  have := w.isLt
  omega

theorem toNat_immBField (w : Word) :
    (immBField w).toNat = w.toNat / 2147483648 * 4096 + w.toNat / 128 % 2 * 2048 + w.toNat / 33554432 % 64 * 32
      + w.toNat / 256 % 16 * 2 := by
  have h : (immBField w).toNat = ((((w.toNat / 2147483648 % 2) * 2 + w.toNat / 128 % 2) * 64
      + w.toNat / 33554432 % 64) * 16 + w.toNat / 256 % 16) * 2 + 0 := by
    rw [immBField, toNat_append_eq, toNat_append_eq, toNat_append_eq, toNat_append_eq, toNat_bits, toNat_bits,
      toNat_bits, toNat_bits]
    rfl
  have := w.isLt
  omega

theorem getLsbD_eq_odd (w : Word) (i : Nat) : w.getLsbD i = decide (w.toNat / 2 ^ i % 2 = 1) := by
  simp [BitVec.getLsbD, Nat.testBit_eq_decide_div_mod_eq]

/-! ### The fields of the encoder's words -/

theorem toFin_regBits (r : RegIdx) : (regBits r).toFin = r := rfl

theorem bits_encodeRegReg (f7 : BitVec 7) (f3 : BitVec 3) (rd rs1 rs2 : RegIdx) (hi lo : Nat) :
    bits (encodeRegReg f7 f3 rd rs1 rs2) hi lo =
      BitVec.extractLsb' (n := 7 + 5 + 5 + 3 + 5 + 7) lo (hi - lo + 1)
        (f7 ++ regBits rs2 ++ regBits rs1 ++ f3 ++ regBits rd ++ Config.opcR) := rfl

theorem bits_encode_lw (rd rs1 : RegIdx) (imm : BitVec 12) (hi lo : Nat) :
    bits (encode (.lw rd rs1 imm)) hi lo =
      BitVec.extractLsb' (n := 12 + 5 + 3 + 5 + 7) lo (hi - lo + 1)
        (imm ++ regBits rs1 ++ Config.f3CanonLoadStore ++ regBits rd ++ Config.opcLw) := rfl

/-- Every field of a register-register word is what was encoded (R58). -/
theorem encodeRegReg_fields (f7 : BitVec 7) (f3 : BitVec 3) (rd rs1 rs2 : RegIdx) :
    opcodeOf (encodeRegReg f7 f3 rd rs1 rs2) = Config.opcR ∧ rdOf (encodeRegReg f7 f3 rd rs1 rs2) = rd ∧
    rs1Of (encodeRegReg f7 f3 rd rs1 rs2) = rs1 ∧ rs2Of (encodeRegReg f7 f3 rd rs1 rs2) = rs2 ∧
    funct3Of (encodeRegReg f7 f3 rd rs1 rs2) = f3 ∧ funct7Of (encodeRegReg f7 f3 rd rs1 rs2) = f7 := by
  refine ⟨?_, ?_, ?_, ?_, ?_, ?_⟩ <;>
  simp (disch := decide) only [opcodeOf, rdOf, rs1Of, rs2Of, funct3Of, funct7Of, bits_encodeRegReg,
    BitVec.extractLsb'_append_eq_of_add_le, BitVec.extractLsb'_append_eq_of_le, BitVec.extractLsb'_eq_self,
    toFin_regBits, Nat.reduceSub]

/-- Every field of an encoded load is what was encoded (R58). -/
theorem encode_lw_fields (rd rs1 : RegIdx) (imm : BitVec 12) :
    opcodeOf (encode (.lw rd rs1 imm)) = Config.opcLw ∧ rdOf (encode (.lw rd rs1 imm)) = rd ∧
    rs1Of (encode (.lw rd rs1 imm)) = rs1 ∧ immIField (encode (.lw rd rs1 imm)) = imm := by
  refine ⟨?_, ?_, ?_, ?_⟩ <;>
  simp (disch := decide) only [opcodeOf, rdOf, rs1Of, immIField, bits_encode_lw,
    BitVec.extractLsb'_append_eq_of_add_le, BitVec.extractLsb'_append_eq_of_le, BitVec.extractLsb'_eq_self,
    toFin_regBits, Nat.reduceSub]

/-- The two halves of an S-format immediate make it whole (R55). -/
theorem storeImm_halves (imm : BitVec 12) : (imm.extractLsb 11 5 ++ imm.extractLsb 4 0 : BitVec 12) = imm := by
  apply BitVec.eq_of_toNat_eq
  have := imm.isLt
  rw [toNat_append_eq, toNat_extract, toNat_extract]
  show imm.toNat / 32 % 128 * 32 + imm.toNat / 1 % 32 = imm.toNat
  omega

/-- The fields of a word laid out as the S-format (R58). -/
theorem formatS_fields (w : Word) (a : BitVec 7) (b : BitVec 5) (rs2 rs1 : RegIdx) (f3 : BitVec 3) (opc : BitVec 7)
    (h : w = (a ++ regBits rs2 ++ regBits rs1 ++ f3 ++ b ++ opc : BitVec (7 + 5 + 5 + 3 + 5 + 7))) :
    opcodeOf w = opc ∧ rs2Of w = rs2 ∧ rs1Of w = rs1 ∧ immSField w = a ++ b := by
  have hb : ∀ hi lo, bits w hi lo = BitVec.extractLsb' (n := 7 + 5 + 5 + 3 + 5 + 7) lo (hi - lo + 1)
      (a ++ regBits rs2 ++ regBits rs1 ++ f3 ++ b ++ opc) := fun _ _ => by rw [h]; rfl
  refine ⟨?_, ?_, ?_, ?_⟩ <;>
  simp (disch := decide) only [opcodeOf, rs2Of, rs1Of, immSField, hb, BitVec.extractLsb'_append_eq_of_add_le,
    BitVec.extractLsb'_append_eq_of_le, BitVec.extractLsb'_eq_self, toFin_regBits, Nat.reduceSub]

/-- Every field of an encoded store is what was encoded (R58). -/
theorem encode_sw_fields (rs2 rs1 : RegIdx) (imm : BitVec 12) :
    opcodeOf (encode (.sw rs2 rs1 imm)) = Config.opcSw ∧ rs2Of (encode (.sw rs2 rs1 imm)) = rs2 ∧
    rs1Of (encode (.sw rs2 rs1 imm)) = rs1 ∧ immSField (encode (.sw rs2 rs1 imm)) = imm := by
  obtain ⟨h1, h2, h3, h4⟩ := formatS_fields (encode (.sw rs2 rs1 imm)) (imm.extractLsb 11 5) (imm.extractLsb 4 0)
    rs2 rs1 Config.f3CanonLoadStore Config.opcSw rfl
  exact ⟨h1, h2, h3, h4.trans (storeImm_halves imm)⟩

/-- The parts of an even 13-bit offset make it whole (R56). -/
theorem branchOffset_parts (off : BitVec 13) (h : off.getLsbD 0 = false) :
    (off.extractLsb 12 12 ++ off.extractLsb 11 11 ++ off.extractLsb 10 5 ++ off.extractLsb 4 1 ++ (0b0 : BitVec 1)
      : BitVec 13) = off := by
  have even : off.toNat % 2 = 0 := by
    simp [BitVec.getLsbD, Nat.testBit_eq_decide_div_mod_eq] at h
    omega
  have := off.isLt
  apply BitVec.eq_of_toNat_eq
  rw [toNat_append_eq, toNat_append_eq, toNat_append_eq, toNat_append_eq, toNat_extract, toNat_extract,
    toNat_extract, toNat_extract]
  show (((off.toNat / 4096 % 2 * 2 + off.toNat / 2048 % 2) * 64 + off.toNat / 32 % 64) * 16 + off.toNat / 2 % 16) * 2
    + 0 = off.toNat
  omega

/-- The fields of a word laid out as the B-format (R58). -/
theorem formatB_fields (w : Word) (a : BitVec 1) (b : BitVec 6) (c : BitVec 4) (e : BitVec 1) (rs2 rs1 : RegIdx)
    (f3 : BitVec 3) (opc : BitVec 7)
    (h : w = (a ++ b ++ regBits rs2 ++ regBits rs1 ++ f3 ++ c ++ e ++ opc :
      BitVec (1 + 6 + 5 + 5 + 3 + 4 + 1 + 7))) :
    opcodeOf w = opc ∧ rs1Of w = rs1 ∧ rs2Of w = rs2 ∧ immBField w = a ++ e ++ b ++ c ++ (0b0 : BitVec 1) := by
  have hb : ∀ hi lo, bits w hi lo = BitVec.extractLsb' (n := 1 + 6 + 5 + 5 + 3 + 4 + 1 + 7) lo (hi - lo + 1)
      (a ++ b ++ regBits rs2 ++ regBits rs1 ++ f3 ++ c ++ e ++ opc) := fun _ _ => by rw [h]; rfl
  refine ⟨?_, ?_, ?_, ?_⟩ <;>
  simp (disch := decide) only [opcodeOf, rs2Of, rs1Of, immBField, hb, BitVec.extractLsb'_append_eq_of_add_le,
    BitVec.extractLsb'_append_eq_of_le, BitVec.extractLsb'_eq_self, toFin_regBits, Nat.reduceSub]

/-- Every field of an encoded branch is what was encoded (R58). -/
theorem encode_beq_fields (rs1 rs2 : RegIdx) (off : BitVec 13) (h : off.getLsbD 0 = false) :
    opcodeOf (encode (.beq rs1 rs2 off)) = Config.opcBeq ∧ rs1Of (encode (.beq rs1 rs2 off)) = rs1 ∧
    rs2Of (encode (.beq rs1 rs2 off)) = rs2 ∧ immBField (encode (.beq rs1 rs2 off)) = off := by
  obtain ⟨h1, h2, h3, h4⟩ := formatB_fields (encode (.beq rs1 rs2 off)) (off.extractLsb 12 12) (off.extractLsb 10 5)
    (off.extractLsb 4 1) (off.extractLsb 11 11) rs2 rs1 Config.f3CanonBeq Config.opcBeq rfl
  exact ⟨h1, h2, h3, h4.trans (branchOffset_parts off h)⟩

/-! ### Decoding by opcode -/

theorem decode_of_opcLw (w : Word) (h : opcodeOf w = Config.opcLw) :
    decode w = .lw (rdOf w) (rs1Of w) (immIField w) := by rw [decode, h]; rfl

theorem decode_of_opcSw (w : Word) (h : opcodeOf w = Config.opcSw) :
    decode w = .sw (rs2Of w) (rs1Of w) (immSField w) := by rw [decode, h]; rfl

theorem decode_of_opcR (w : Word) (h : opcodeOf w = Config.opcR) : decode w = decodeRegReg w := by
  rw [decode, h]; rfl

theorem decode_of_opcBeq (w : Word) (h : opcodeOf w = Config.opcBeq) :
    decode w = .beq (rs1Of w) (rs2Of w) (immBField w) := by rw [decode, h]; rfl

theorem decode_of_other (w : Word) (h : opcodeOf w ∉ recognisedOpcodes) : decode w = .unknown w := by
  simp only [recognisedOpcodes, List.mem_cons, List.not_mem_nil, or_false, not_or] at h
  simp [decode, h]

/-- The five cases of first-level decode (R60). -/
theorem decode_cases (w : Word) :
    (opcodeOf w = Config.opcLw ∧ decode w = .lw (rdOf w) (rs1Of w) (immIField w)) ∨
    (opcodeOf w = Config.opcSw ∧ decode w = .sw (rs2Of w) (rs1Of w) (immSField w)) ∨
    (opcodeOf w = Config.opcR ∧ decode w = decodeRegReg w) ∨
    (opcodeOf w = Config.opcBeq ∧ decode w = .beq (rs1Of w) (rs2Of w) (immBField w)) ∨
    (opcodeOf w ∉ recognisedOpcodes ∧ decode w = .unknown w) := by
  by_cases h : opcodeOf w ∈ recognisedOpcodes
  · simp only [recognisedOpcodes, List.mem_cons, List.not_mem_nil, or_false] at h
    rcases h with h | h | h | h
    · exact .inl ⟨h, decode_of_opcLw w h⟩
    · exact .inr (.inl ⟨h, decode_of_opcSw w h⟩)
    · exact .inr (.inr (.inl ⟨h, decode_of_opcR w h⟩))
    · exact .inr (.inr (.inr (.inl ⟨h, decode_of_opcBeq w h⟩)))
  · exact .inr (.inr (.inr (.inr ⟨h, decode_of_other w h⟩)))

end Sys2Proof
end

