-- ==== Sys2Proof/Laws/Memory.lean ====
section
/-! SUPPORT. The laws of the sparse memory: read after write, and the canonical form is kept by every operation. -/

namespace Sys2Proof.Machine

/-! ### Read after write -/

@[simp] theorem Memory.wordAt?_put_same (m : Memory) (k : Nat) (v : Word) :
    Memory.wordAt? (Memory.put m k v) k = some v := by
  induction m with
  | nil => simp [Memory.put, Memory.wordAt?]
  | cons c m ih =>
    simp only [Memory.put]
    split
    · simp [Memory.wordAt?]
    · split <;> simp [Memory.wordAt?, *]

theorem Memory.wordAt?_put_other (m : Memory) (k j : Nat) (v : Word) (h : j ≠ k) :
    Memory.wordAt? (Memory.put m k v) j = Memory.wordAt? m j := by
  induction m with
  | nil => simp [Memory.put, Memory.wordAt?, h]
  | cons c m ih =>
    simp only [Memory.put]
    split
    · simp [Memory.wordAt?, h]
    · split
      · rename_i hk
        simp [Memory.wordAt?, h, ← hk]
      · simp [Memory.wordAt?, ih]

@[simp] theorem Memory.wordAt?_remove_same (m : Memory) (k : Nat) : Memory.wordAt? (Memory.remove m k) k = none := by
  induction m with
  | nil => rfl
  | cons c m ih =>
    simp only [Memory.remove]
    split
    · exact ih
    · simp [Memory.wordAt?, *]

theorem Memory.wordAt?_remove_other (m : Memory) (k j : Nat) (h : j ≠ k) :
    Memory.wordAt? (Memory.remove m k) j = Memory.wordAt? m j := by
  induction m with
  | nil => rfl
  | cons c m ih =>
    simp only [Memory.remove]
    split
    · rename_i hk
      simp [Memory.wordAt?, ← hk, h, ih]
    · simp [Memory.wordAt?, ih]

@[simp] theorem Memory.read_nil (k : Nat) : Memory.read [] k = unlistedWord := rfl

@[simp] theorem Memory.read_store_same (m : Memory) (k : Nat) (v : Word) :
    Memory.read (Memory.store m k v) k = v := by
  unfold Memory.store Memory.read
  split
  · simp [*]
  · simp

theorem Memory.read_store_other (m : Memory) (k j : Nat) (v : Word) (h : j ≠ k) :
    Memory.read (Memory.store m k v) j = Memory.read m j := by
  unfold Memory.store Memory.read
  split
  · rw [Memory.wordAt?_remove_other m k j h]
  · rw [Memory.wordAt?_put_other m k j v h]

/-! ### What each operation lists -/

theorem Memory.mem_put (m : Memory) (k : Nat) (v : Word) (c : Nat × Word) (h : c ∈ Memory.put m k v) :
    c = (k, v) ∨ c ∈ m := by
  induction m with
  | nil => simpa [Memory.put] using h
  | cons d m ih =>
    simp only [Memory.put] at h
    split at h
    · simpa using h
    · split at h
      · rcases List.mem_cons.1 h with h | h
        · exact .inl h
        · exact .inr (List.mem_cons_of_mem _ h)
      · rcases List.mem_cons.1 h with h | h
        · exact .inr (by simp [h])
        · exact (ih h).imp_right (List.mem_cons_of_mem _)

theorem Memory.mem_remove (m : Memory) (k : Nat) (c : Nat × Word) (h : c ∈ Memory.remove m k) : c ∈ m := by
  induction m with
  | nil => exact h
  | cons d m ih =>
    simp only [Memory.remove] at h
    split at h
    · exact List.mem_cons_of_mem _ (ih h)
    · rcases List.mem_cons.1 h with h | h
      · exact h ▸ List.mem_cons_self
      · exact List.mem_cons_of_mem _ (ih h)

/-- A store lists nothing but the word stored and what was listed, and never an unlisted value of its own. -/
theorem Memory.mem_store (m : Memory) (k : Nat) (v : Word) (c : Nat × Word) (h : c ∈ Memory.store m k v) :
    (c = (k, v) ∧ v ≠ unlistedWord) ∨ c ∈ m := by
  unfold Memory.store at h
  split at h
  · exact .inr (Memory.mem_remove m k c h)
  · rename_i hv
    exact (Memory.mem_put m k v c h).imp_left fun e => ⟨e, hv⟩

/-! ### The canonical form is kept -/

theorem Memory.rising_put (m : Memory) (k : Nat) (v : Word) (h : Memory.rising m) :
    Memory.rising (Memory.put m k v) := by
  induction m with
  | nil => simp [Memory.put]
  | cons d m ih =>
    obtain ⟨hd, hm⟩ := List.pairwise_cons.1 h
    simp only [Memory.put]
    split
    · rename_i hk
      refine List.pairwise_cons.2 ⟨fun c hc => ?_, h⟩
      rcases List.mem_cons.1 hc with rfl | hc
      · exact hk
      · exact Nat.lt_trans hk (hd c hc)
    · split
      · rename_i hk
        exact List.pairwise_cons.2 ⟨fun c hc => hk ▸ hd c hc, hm⟩
      · refine List.pairwise_cons.2 ⟨fun c hc => ?_, ih hm⟩
        rcases Memory.mem_put m k v c hc with rfl | hc
        · simp only; omega
        · exact hd c hc

theorem Memory.rising_remove (m : Memory) (k : Nat) (h : Memory.rising m) : Memory.rising (Memory.remove m k) := by
  induction m with
  | nil => exact h
  | cons d m ih =>
    obtain ⟨hd, hm⟩ := List.pairwise_cons.1 h
    simp only [Memory.remove]
    split
    · exact ih hm
    · exact List.pairwise_cons.2 ⟨fun c hc => hd c (Memory.mem_remove m k c hc), ih hm⟩

theorem Memory.wf_nil : Memory.wf [] := by decide

theorem Memory.wf_store (m : Memory) (k : Nat) (v : Word) (h : Memory.wf m) : Memory.wf (Memory.store m k v) := by
  refine ⟨?_, fun c hc => ?_⟩
  · unfold Memory.store
    split
    · exact Memory.rising_remove m k h.1
    · exact Memory.rising_put m k v h.1
  · rcases Memory.mem_store m k v c hc with ⟨rfl, hv⟩ | hc
    · exact hv
    · exact h.2 c hc

theorem Memory.below_store (m : Memory) (k n : Nat) (v : Word) (hk : k < n) (h : Memory.below m n) :
    Memory.below (Memory.store m k v) n := by
  intro c hc
  rcases Memory.mem_store m k v c hc with ⟨rfl, _⟩ | hc
  · exact hk
  · exact h c hc

theorem Memory.wfCode_put (m : Memory) (k : Nat) (v : Word) (hk : isCodeAddress k) (h : Memory.wfCode m) :
    Memory.wfCode (Memory.put m k v) := by
  refine ⟨Memory.rising_put m k v h.1, fun c hc => ?_⟩
  rcases Memory.mem_put m k v c hc with rfl | hc
  · exact hk
  · exact h.2 c hc

/-- A key below every listed one is not listed. -/
theorem Memory.wordAt?_of_lt (m : Memory) (k : Nat) (h : ∀ c ∈ m, k < c.1) : Memory.wordAt? m k = none := by
  induction m with
  | nil => rfl
  | cons c m ih =>
    have hk : k < c.1 := h c (by simp)
    simp only [Memory.wordAt?, Nat.ne_of_lt hk, ↓reduceIte]
    exact ih fun d hd => h d (by simp [hd])

/-! ### Regions -/

/-- One more pair of a program is one more word listed, if it is at a code address. -/
theorem Memory.ofCodePairs_append_one (ps : List (Nat × Word)) (c : Nat × Word) :
    Memory.ofCodePairs (ps ++ [c]) =
      if isCodeAddress c.1 then Memory.put (Memory.ofCodePairs ps) c.1 c.2 else Memory.ofCodePairs ps := by
  simp only [Memory.ofCodePairs, List.foldl_append, List.foldl_cons, List.foldl_nil]

/-- One more pair of DMEM_INIT is one more word stored, if its index is in range. -/
theorem Memory.ofDataPairs_append_one (n : Nat) (ps : List (Nat × Word)) (c : Nat × Word) :
    Memory.ofDataPairs n (ps ++ [c]) =
      if c.1 < n then Memory.store (Memory.ofDataPairs n ps) c.1 c.2 else Memory.ofDataPairs n ps := by
  simp only [Memory.ofDataPairs, List.foldl_append, List.foldl_cons, List.foldl_nil]

theorem regionHas_nil (k : Nat) : regionHas [] k = false := rfl

end Sys2Proof.Machine
end

