-- ==== Sys2Proof/Laws/State.lean ====
section
/-! SUPPORT. The field laws of every state update, and read-after-write of the register file and the pc. -/

namespace Sys2Proof.Machine

@[simp] theorem State.writeReg_pc (s : State) (r : RegIdx) (v : Word) : (s.writeReg r v).pc = s.pc := rfl
@[simp] theorem State.writeReg_regs (s : State) (r : RegIdx) (v : Word) : (s.writeReg r v).regs = s.regs.set r.val v := rfl
@[simp] theorem State.writeReg_dmem (s : State) (r : RegIdx) (v : Word) : (s.writeReg r v).dmem = s.dmem := rfl
@[simp] theorem State.writeReg_imem (s : State) (r : RegIdx) (v : Word) : (s.writeReg r v).imem = s.imem := rfl
@[simp] theorem State.writeReg_dmemWords (s : State) (r : RegIdx) (v : Word) : (s.writeReg r v).dmemWords = s.dmemWords := rfl
@[simp] theorem State.writeReg_hostReadRegion (s : State) (r : RegIdx) (v : Word) : (s.writeReg r v).hostReadRegion = s.hostReadRegion := rfl
@[simp] theorem State.writeReg_hostWriteRegion (s : State) (r : RegIdx) (v : Word) : (s.writeReg r v).hostWriteRegion = s.hostWriteRegion := rfl
@[simp] theorem State.writeReg_hostInbox (s : State) (r : RegIdx) (v : Word) : (s.writeReg r v).hostInbox = s.hostInbox := rfl
@[simp] theorem State.writeReg_halted (s : State) (r : RegIdx) (v : Word) : (s.writeReg r v).halted = s.halted := rfl

@[simp] theorem State.setPc_pc (s : State) (p : Word) : (s.setPc p).pc = p := rfl
@[simp] theorem State.setPc_regs (s : State) (p : Word) : (s.setPc p).regs = s.regs := rfl
@[simp] theorem State.setPc_dmem (s : State) (p : Word) : (s.setPc p).dmem = s.dmem := rfl
@[simp] theorem State.setPc_imem (s : State) (p : Word) : (s.setPc p).imem = s.imem := rfl
@[simp] theorem State.setPc_dmemWords (s : State) (p : Word) : (s.setPc p).dmemWords = s.dmemWords := rfl
@[simp] theorem State.setPc_hostReadRegion (s : State) (p : Word) : (s.setPc p).hostReadRegion = s.hostReadRegion := rfl
@[simp] theorem State.setPc_hostWriteRegion (s : State) (p : Word) : (s.setPc p).hostWriteRegion = s.hostWriteRegion := rfl
@[simp] theorem State.setPc_hostInbox (s : State) (p : Word) : (s.setPc p).hostInbox = s.hostInbox := rfl
@[simp] theorem State.setPc_halted (s : State) (p : Word) : (s.setPc p).halted = s.halted := rfl

@[simp] theorem State.advancePc_pc (s : State) : s.advancePc.pc = s.pc + 4 := rfl
@[simp] theorem State.advancePc_regs (s : State) : s.advancePc.regs = s.regs := rfl
@[simp] theorem State.advancePc_dmem (s : State) : s.advancePc.dmem = s.dmem := rfl
@[simp] theorem State.advancePc_imem (s : State) : s.advancePc.imem = s.imem := rfl
@[simp] theorem State.advancePc_dmemWords (s : State) : s.advancePc.dmemWords = s.dmemWords := rfl
@[simp] theorem State.advancePc_hostReadRegion (s : State) : s.advancePc.hostReadRegion = s.hostReadRegion := rfl
@[simp] theorem State.advancePc_hostWriteRegion (s : State) : s.advancePc.hostWriteRegion = s.hostWriteRegion := rfl
@[simp] theorem State.advancePc_hostInbox (s : State) : s.advancePc.hostInbox = s.hostInbox := rfl
@[simp] theorem State.advancePc_halted (s : State) : s.advancePc.halted = s.halted := rfl

@[simp] theorem State.setDataWord_pc (s : State) (k : Nat) (v : Word) : (s.setDataWord k v).pc = s.pc := rfl
@[simp] theorem State.setDataWord_regs (s : State) (k : Nat) (v : Word) : (s.setDataWord k v).regs = s.regs := rfl
@[simp] theorem State.setDataWord_dmem (s : State) (k : Nat) (v : Word) : (s.setDataWord k v).dmem = Memory.store s.dmem k v := rfl
@[simp] theorem State.setDataWord_imem (s : State) (k : Nat) (v : Word) : (s.setDataWord k v).imem = s.imem := rfl
@[simp] theorem State.setDataWord_dmemWords (s : State) (k : Nat) (v : Word) : (s.setDataWord k v).dmemWords = s.dmemWords := rfl
@[simp] theorem State.setDataWord_hostReadRegion (s : State) (k : Nat) (v : Word) : (s.setDataWord k v).hostReadRegion = s.hostReadRegion := rfl
@[simp] theorem State.setDataWord_hostWriteRegion (s : State) (k : Nat) (v : Word) : (s.setDataWord k v).hostWriteRegion = s.hostWriteRegion := rfl
@[simp] theorem State.setDataWord_hostInbox (s : State) (k : Nat) (v : Word) : (s.setDataWord k v).hostInbox = s.hostInbox := rfl
@[simp] theorem State.setDataWord_halted (s : State) (k : Nat) (v : Word) : (s.setDataWord k v).halted = s.halted := rfl

@[simp] theorem State.halt_pc (s : State) (f : Fault) : (s.halt f).pc = s.pc := rfl
@[simp] theorem State.halt_regs (s : State) (f : Fault) : (s.halt f).regs = s.regs := rfl
@[simp] theorem State.halt_dmem (s : State) (f : Fault) : (s.halt f).dmem = s.dmem := rfl
@[simp] theorem State.halt_imem (s : State) (f : Fault) : (s.halt f).imem = s.imem := rfl
@[simp] theorem State.halt_dmemWords (s : State) (f : Fault) : (s.halt f).dmemWords = s.dmemWords := rfl
@[simp] theorem State.halt_hostReadRegion (s : State) (f : Fault) : (s.halt f).hostReadRegion = s.hostReadRegion := rfl
@[simp] theorem State.halt_hostWriteRegion (s : State) (f : Fault) : (s.halt f).hostWriteRegion = s.hostWriteRegion := rfl
@[simp] theorem State.halt_hostInbox (s : State) (f : Fault) : (s.halt f).hostInbox = s.hostInbox := rfl
@[simp] theorem State.halt_halted (s : State) (f : Fault) : (s.halt f).halted = some f := rfl

@[simp] theorem State.launch_pc (p : Launch) : (State.launch p).pc = p.resetVector := rfl
@[simp] theorem State.launch_regs (p : Launch) : (State.launch p).regs = p.regInit := rfl
@[simp] theorem State.launch_dmem (p : Launch) : (State.launch p).dmem = Memory.ofDataPairs p.dmemWords p.dmemInit := rfl
@[simp] theorem State.launch_imem (p : Launch) : (State.launch p).imem = Memory.ofCodePairs p.program := rfl
@[simp] theorem State.launch_dmemWords (p : Launch) : (State.launch p).dmemWords = p.dmemWords := rfl
@[simp] theorem State.launch_hostReadRegion (p : Launch) : (State.launch p).hostReadRegion = p.hostReadRegion := rfl
@[simp] theorem State.launch_hostWriteRegion (p : Launch) : (State.launch p).hostWriteRegion = p.hostWriteRegion := rfl
@[simp] theorem State.launch_hostInbox (p : Launch) : (State.launch p).hostInbox = p.hostMoves := rfl
@[simp] theorem State.launch_halted (p : Launch) : (State.launch p).halted = none := rfl

/-! ### The reference launch -/

@[simp] theorem referenceLaunch_resetVector (seed : SeedReading) (third : AndOrChoice) (p : Launch) :
    (referenceLaunch seed third p).resetVector = Config.referenceVector := rfl
@[simp] theorem referenceLaunch_regInit (seed : SeedReading) (third : AndOrChoice) (p : Launch) :
    (referenceLaunch seed third p).regInit = Config.withReferenceRegs p.regInit := rfl
@[simp] theorem referenceLaunch_dmemInit (seed : SeedReading) (third : AndOrChoice) (p : Launch) :
    (referenceLaunch seed third p).dmemInit = p.dmemInit ++ [(seed.index, 10)] := rfl
@[simp] theorem referenceLaunch_program (seed : SeedReading) (third : AndOrChoice) (p : Launch) :
    (referenceLaunch seed third p).program = p.program ++ referenceProgram third := rfl
@[simp] theorem referenceLaunch_dmemWords (seed : SeedReading) (third : AndOrChoice) (p : Launch) :
    (referenceLaunch seed third p).dmemWords = p.dmemWords := rfl
@[simp] theorem referenceLaunch_hostReadRegion (seed : SeedReading) (third : AndOrChoice) (p : Launch) :
    (referenceLaunch seed third p).hostReadRegion = p.hostReadRegion := rfl
@[simp] theorem referenceLaunch_hostWriteRegion (seed : SeedReading) (third : AndOrChoice) (p : Launch) :
    (referenceLaunch seed third p).hostWriteRegion = p.hostWriteRegion := rfl
@[simp] theorem referenceLaunch_hostMoves (seed : SeedReading) (third : AndOrChoice) (p : Launch) :
    (referenceLaunch seed third p).hostMoves = p.hostMoves := rfl

/-! ### Registers -/

@[simp] theorem State.readReg_writeReg_same (s : State) (r : RegIdx) (v : Word) : (s.writeReg r v).readReg r = v := by
  simp [State.readReg]

theorem State.readReg_writeReg_other (s : State) (r q : RegIdx) (v : Word) (h : q ≠ r) :
    (s.writeReg r v).readReg q = s.readReg q := by
  have hv : r.val ≠ q.val := fun e => h (Fin.ext e.symm)
  simp [State.readReg, hv]

@[simp] theorem State.readReg_setPc (s : State) (p : Word) (r : RegIdx) : (s.setPc p).readReg r = s.readReg r := rfl
@[simp] theorem State.readReg_advancePc (s : State) (r : RegIdx) : s.advancePc.readReg r = s.readReg r := rfl
@[simp] theorem State.readReg_setDataWord (s : State) (k : Nat) (v : Word) (r : RegIdx) :
    (s.setDataWord k v).readReg r = s.readReg r := rfl
@[simp] theorem State.readReg_halt (s : State) (f : Fault) (r : RegIdx) : (s.halt f).readReg r = s.readReg r := rfl

@[simp] theorem State.dataWord_writeReg (s : State) (r : RegIdx) (v : Word) (k : Nat) :
    (s.writeReg r v).dataWord k = s.dataWord k := rfl
@[simp] theorem State.dataWord_setPc (s : State) (p : Word) (k : Nat) : (s.setPc p).dataWord k = s.dataWord k := rfl
@[simp] theorem State.dataWord_advancePc (s : State) (k : Nat) : s.advancePc.dataWord k = s.dataWord k := rfl
@[simp] theorem State.dataWord_halt (s : State) (f : Fault) (k : Nat) : (s.halt f).dataWord k = s.dataWord k := rfl

end Sys2Proof.Machine
end

