-- ==== Sys2Proof/Laws/Ops.lean ====
section
/-! SUPPORT. One spec lemma for each shared operation: everything it can do. -/

namespace Sys2Proof.Machine

/-! ### Data memory -/

@[simp] theorem State.dataWord_setDataWord_same (s : State) (k : Nat) (v : Word) :
    (s.setDataWord k v).dataWord k = v := Memory.read_store_same s.dmem k v

theorem State.dataWord_setDataWord_other (s : State) (k j : Nat) (v : Word) (h : j ≠ k) :
    (s.setDataWord k v).dataWord j = s.dataWord j := Memory.read_store_other s.dmem k j v h

theorem State.memRead_inRange (s : State) (a : Word) (h : wordIndex a < s.dmemWords) :
    s.memRead a = .ok (s.dataWord (wordIndex a)) := by simp [State.memRead, h]

theorem State.memRead_outOfRange (s : State) (a : Word) (h : s.dmemWords ≤ wordIndex a) :
    s.memRead a = .error (.dataOutOfRange a) := by simp [State.memRead, Nat.not_lt.2 h]

theorem State.memWrite_inRange (s : State) (a v : Word) (h : wordIndex a < s.dmemWords) :
    s.memWrite a v = .ok (s.setDataWord (wordIndex a) v) := by simp [State.memWrite, h]

theorem State.memWrite_outOfRange (s : State) (a v : Word) (h : s.dmemWords ≤ wordIndex a) :
    s.memWrite a v = .error (.dataOutOfRange a) := by simp [State.memWrite, Nat.not_lt.2 h]

/-! ### Faults -/

@[simp] theorem attempt_ok {α : Type} (a : α) (k : α → Host.Outcome State Fault Refusal) :
    attempt (.ok a) k = k a := rfl

@[simp] theorem attempt_error {α : Type} (r : Fault) (k : α → Host.Outcome State Fault Refusal) :
    attempt (.error r) k = .fault r := rfl

/-- An attempt that gives a next state had a value to go on with. -/
theorem attempt_next {α : Type} (e : Except Fault α) (k : α → Host.Outcome State Fault Refusal) (t : State)
    (h : attempt e k = .next t) : ∃ a, e = .ok a ∧ k a = .next t := by
  cases e with
  | ok a => exact ⟨a, rfl, h⟩
  | error r => simp at h

/-- An attempt faults with the access's fault, or the continuation does. -/
theorem attempt_fault {α : Type} (e : Except Fault α) (k : α → Host.Outcome State Fault Refusal) (r : Fault)
    (h : attempt e k = .fault r) : e = .error r ∨ ∃ a, e = .ok a ∧ k a = .fault r := by
  cases e with
  | ok a => exact .inr ⟨a, rfl, h⟩
  | error q => simp at h; exact .inl (h ▸ rfl)

/-! ### Fetch -/

theorem State.fetchWord_ok (s : State) (a w : Word) :
    s.fetchWord a = .ok w ↔ bits a 1 0 = 0 ∧ Memory.wordAt? s.imem a.toNat = some w := by
  unfold State.fetchWord
  split
  · simp_all
  · split <;> simp_all

/-- A fetch depends on instruction memory alone. -/
theorem State.fetchWord_of_imem (s t : State) (a : Word) (h : t.imem = s.imem) : t.fetchWord a = s.fetchWord a := by
  simp [State.fetchWord, h]

theorem bits_low_two_toNat (a : Word) : (bits a 1 0).toNat = a.toNat % 4 := by
  simp [bits, BitVec.extractLsb, BitVec.extractLsb'_toNat]

theorem bits_low_two_zero (a : Word) : bits a 1 0 = 0 ↔ a.toNat % 4 = 0 := by
  rw [← bits_low_two_toNat, ← BitVec.toNat_inj]; simp

theorem wordIndex_eq_div (a : Word) : wordIndex a = a.toNat / 4 := by
  have := a.isLt
  simp [wordIndex, bits, BitVec.extractLsb, BitVec.extractLsb'_toNat, Nat.shiftRight_eq_div_pow]
  omega

/-! ### The ALU and the zero flag -/

theorem zeroFlag_iff (r : Word) : zeroFlag r = true ↔ r = 0 := by simp [zeroFlag]

theorem zeroFlag_subtract (a b : Word) : zeroFlag (alu a b .subtract) = true ↔ a = b := by
  rw [zeroFlag_iff]
  simp only [alu, aluSubtract]
  constructor
  · intro h
    have := congrArg (· + b) h
    simpa using this
  · rintro rfl
    simp

/-! ### The collaborators' turn -/

/-- What one host write can do: nothing, or replace one data word of the region. -/
theorem State.hostWrite_cases (s : State) (h : HostWrite) :
    s.hostWrite h = s ∨
    (regionHas s.hostWriteRegion h.index = true ∧ h.index < s.dmemWords ∧
      s.hostWrite h = s.setDataWord h.index h.value) := by
  unfold State.hostWrite
  split
  · rename_i hc
    simp only [Bool.and_eq_true, decide_eq_true_eq] at hc
    exact .inr ⟨hc.1, hc.2, rfl⟩
  · exact .inl rfl

theorem State.hostWrite_eq (s : State) (h : HostWrite) :
    s.hostWrite h = { s with dmem := (s.hostWrite h).dmem } := by
  rcases s.hostWrite_cases h with e | ⟨-, -, e⟩ <;> rw [e]
  rfl

/-- A run of host writes touches data memory alone. -/
theorem State.foldl_hostWrite_eq (due : List HostWrite) (s : State) :
    due.foldl State.hostWrite s = { s with dmem := (due.foldl State.hostWrite s).dmem } := by
  induction due generalizing s with
  | nil => rfl
  | cons h due ih =>
    rw [List.foldl_cons, ih, State.hostWrite_eq s h]

/-- The collaborators' turn touches data memory and their own inbox alone. -/
theorem State.hostTurn_eq (s : State) :
    s.hostTurn = { s with dmem := s.hostTurn.dmem, hostInbox := s.hostTurn.hostInbox } := by
  unfold State.hostTurn
  split
  · rfl
  · rw [State.foldl_hostWrite_eq]

@[simp] theorem State.hostTurn_pc (s : State) : s.hostTurn.pc = s.pc := by rw [State.hostTurn_eq]
@[simp] theorem State.hostTurn_regs (s : State) : s.hostTurn.regs = s.regs := by rw [State.hostTurn_eq]
@[simp] theorem State.hostTurn_imem (s : State) : s.hostTurn.imem = s.imem := by rw [State.hostTurn_eq]
@[simp] theorem State.hostTurn_dmemWords (s : State) : s.hostTurn.dmemWords = s.dmemWords := by
  rw [State.hostTurn_eq]
@[simp] theorem State.hostTurn_hostReadRegion (s : State) : s.hostTurn.hostReadRegion = s.hostReadRegion := by
  rw [State.hostTurn_eq]
@[simp] theorem State.hostTurn_hostWriteRegion (s : State) : s.hostTurn.hostWriteRegion = s.hostWriteRegion := by
  rw [State.hostTurn_eq]
@[simp] theorem State.hostTurn_halted (s : State) : s.hostTurn.halted = s.halted := by rw [State.hostTurn_eq]

@[simp] theorem State.hostTurn_readReg (s : State) (r : RegIdx) : s.hostTurn.readReg r = s.readReg r := by
  simp [State.readReg]

@[simp] theorem State.hostTurn_fetchWord (s : State) (a : Word) : s.hostTurn.fetchWord a = s.fetchWord a :=
  State.fetchWord_of_imem _ _ a (State.hostTurn_imem s)

theorem State.hostTurn_of_no_moves (s : State) (h : s.hostInbox = []) : s.hostTurn = s := by
  simp [State.hostTurn, h]

/-- An invariant of the state that every write into the region keeps, and that the inbox takes no part in, is kept by
the collaborators' turn. -/
theorem State.hostTurn_keeps (P : State → Prop)
    (hwrite : ∀ (s : State) (k : Nat) (v : Word), regionHas s.hostWriteRegion k = true → k < s.dmemWords → P s →
      P (s.setDataWord k v))
    (hinbox : ∀ (s : State) (l : List (List HostWrite)), P s → P { s with hostInbox := l })
    (s : State) (h : P s) : P s.hostTurn := by
  have fold : ∀ (due : List HostWrite) (u : State), P u → P (due.foldl State.hostWrite u) := by
    intro due
    induction due with
    | nil => exact fun u hu => hu
    | cons g due ih =>
      intro u hu
      refine ih _ ?_
      rcases u.hostWrite_cases g with e | ⟨hr, hk, e⟩ <;> rw [e]
      · exact hu
      · exact hwrite u g.index g.value hr hk hu
  unfold State.hostTurn
  split
  · exact h
  · exact fold _ _ (hinbox s _ h)

end Sys2Proof.Machine
end

