-- ==== Sys2Proof/Laws/Exec.lean ====
section
/-! SUPPORT. What each meaning does, as one equation or one case list, so that no later proof unfolds it. -/

namespace Sys2Proof.Machine

theorem execLw_inRange (rd rs1 : RegIdx) (imm : BitVec 12) (s : State)
    (h : wordIndex (effectiveAddr (s.readReg rs1) imm) < s.dmemWords) :
    execLw rd rs1 imm s =
      .next (s.writeReg rd (s.dataWord (wordIndex (effectiveAddr (s.readReg rs1) imm)))).advancePc := by
  rw [execLw, State.memRead_inRange s _ h]; rfl

theorem execLw_outOfRange (rd rs1 : RegIdx) (imm : BitVec 12) (s : State)
    (h : s.dmemWords ≤ wordIndex (effectiveAddr (s.readReg rs1) imm)) :
    execLw rd rs1 imm s = .fault (.dataOutOfRange (effectiveAddr (s.readReg rs1) imm)) := by
  rw [execLw, State.memRead_outOfRange s _ h]; rfl

theorem execSw_inRange (rs2 rs1 : RegIdx) (imm : BitVec 12) (s : State)
    (h : wordIndex (effectiveAddr (s.readReg rs1) imm) < s.dmemWords) :
    execSw rs2 rs1 imm s =
      .next (s.setDataWord (wordIndex (effectiveAddr (s.readReg rs1) imm)) (s.readReg rs2)).advancePc := by
  rw [execSw, State.memWrite_inRange s _ _ h]; rfl

theorem execSw_outOfRange (rs2 rs1 : RegIdx) (imm : BitVec 12) (s : State)
    (h : s.dmemWords ≤ wordIndex (effectiveAddr (s.readReg rs1) imm)) :
    execSw rs2 rs1 imm s = .fault (.dataOutOfRange (effectiveAddr (s.readReg rs1) imm)) := by
  rw [execSw, State.memWrite_outOfRange s _ _ h]; rfl

theorem execBeq_eq (rs1 rs2 : RegIdx) (off : BitVec 13) (s : State) :
    execBeq rs1 rs2 off s =
      if s.readReg rs1 = s.readReg rs2 then .next (s.setPc (branchTarget s.pc off)) else .next s.advancePc := by
  unfold execBeq
  by_cases h : s.readReg rs1 = s.readReg rs2
  · rw [if_pos h, if_pos ((zeroFlag_subtract _ _).2 h)]
  · rw [if_neg h, if_neg (mt (zeroFlag_subtract _ _).1 h)]

/-- Everything an instruction that completes can have done: write one register and advance, store one word in range and
advance, take a branch, or advance. -/
theorem exec_next_cases (i : Instr) (s t : State) (h : exec i s = .next t) :
    (∃ rd v, t = (s.writeReg rd v).advancePc) ∨
    (∃ rs2 rs1 imm, i = .sw rs2 rs1 imm ∧ wordIndex (effectiveAddr (s.readReg rs1) imm) < s.dmemWords ∧
      t = (s.setDataWord (wordIndex (effectiveAddr (s.readReg rs1) imm)) (s.readReg rs2)).advancePc) ∨
    (∃ rs1 rs2 off, i = .beq rs1 rs2 off ∧ t = s.setPc (branchTarget s.pc off)) ∨
    t = s.advancePc := by
  cases i with
  | lw rd rs1 imm =>
    obtain ⟨v, -, hv⟩ := attempt_next _ _ t h
    exact .inl ⟨rd, v, (Host.Outcome.next.inj hv).symm⟩
  | sw rs2 rs1 imm =>
    by_cases hr : wordIndex (effectiveAddr (s.readReg rs1) imm) < s.dmemWords
    · rw [exec, execSw_inRange rs2 rs1 imm s hr] at h
      exact .inr (.inl ⟨rs2, rs1, imm, rfl, hr, (Host.Outcome.next.inj h).symm⟩)
    · rw [exec, execSw_outOfRange rs2 rs1 imm s (Nat.le_of_not_lt hr)] at h
      cases h
  | beq rs1 rs2 off =>
    rw [exec, execBeq_eq] at h
    split at h
    · exact .inr (.inr (.inl ⟨rs1, rs2, off, rfl, (Host.Outcome.next.inj h).symm⟩))
    · exact .inr (.inr (.inr (Host.Outcome.next.inj h).symm))
  | unknown w => exact .inr (.inr (.inr (Host.Outcome.next.inj h).symm))
  | add rd _ _ => exact .inl ⟨rd, _, (Host.Outcome.next.inj h).symm⟩
  | sub rd _ _ => exact .inl ⟨rd, _, (Host.Outcome.next.inj h).symm⟩
  | slt rd _ _ => exact .inl ⟨rd, _, (Host.Outcome.next.inj h).symm⟩
  | or rd _ _ => exact .inl ⟨rd, _, (Host.Outcome.next.inj h).symm⟩
  | and rd _ _ => exact .inl ⟨rd, _, (Host.Outcome.next.inj h).symm⟩
  | rdef001 rd _ _ => exact .inl ⟨rd, _, (Host.Outcome.next.inj h).symm⟩
  | rdef011 rd _ _ => exact .inl ⟨rd, _, (Host.Outcome.next.inj h).symm⟩
  | rdef100 rd _ _ => exact .inl ⟨rd, _, (Host.Outcome.next.inj h).symm⟩
  | rdef101 rd _ _ => exact .inl ⟨rd, _, (Host.Outcome.next.inj h).symm⟩

/-- An instruction faults only by its data access. -/
theorem exec_fault_cases (i : Instr) (s : State) (r : Fault) (h : exec i s = .fault r) :
    (∃ rd rs1 imm, i = .lw rd rs1 imm ∧ s.dmemWords ≤ wordIndex (effectiveAddr (s.readReg rs1) imm) ∧
      r = .dataOutOfRange (effectiveAddr (s.readReg rs1) imm)) ∨
    ∃ rs2 rs1 imm, i = .sw rs2 rs1 imm ∧ s.dmemWords ≤ wordIndex (effectiveAddr (s.readReg rs1) imm) ∧
      r = .dataOutOfRange (effectiveAddr (s.readReg rs1) imm) := by
  cases i with
  | lw rd rs1 imm =>
    by_cases hr : wordIndex (effectiveAddr (s.readReg rs1) imm) < s.dmemWords
    · rw [exec, execLw_inRange rd rs1 imm s hr] at h
      cases h
    · rw [exec, execLw_outOfRange rd rs1 imm s (Nat.le_of_not_lt hr)] at h
      exact .inl ⟨rd, rs1, imm, rfl, Nat.le_of_not_lt hr, (Host.Outcome.fault.inj h).symm⟩
  | sw rs2 rs1 imm =>
    by_cases hr : wordIndex (effectiveAddr (s.readReg rs1) imm) < s.dmemWords
    · rw [exec, execSw_inRange rs2 rs1 imm s hr] at h
      cases h
    · rw [exec, execSw_outOfRange rs2 rs1 imm s (Nat.le_of_not_lt hr)] at h
      exact .inr ⟨rs2, rs1, imm, rfl, Nat.le_of_not_lt hr, (Host.Outcome.fault.inj h).symm⟩
  | beq rs1 rs2 off =>
    rw [exec, execBeq_eq] at h
    split at h <;> cases h
  | unknown w => cases h
  | add rd _ _ => cases h
  | sub rd _ _ => cases h
  | slt rd _ _ => cases h
  | or rd _ _ => cases h
  | and rd _ _ => cases h
  | rdef001 rd _ _ => cases h
  | rdef011 rd _ _ => cases h
  | rdef100 rd _ _ => cases h
  | rdef101 rd _ _ => cases h

end Sys2Proof.Machine
end

