-- ==== Sys2Proof/Laws/PerInstr.lean ====
section
/-! SUPPORT. Statements made for every instruction, one lemma for each constructor. -/

namespace Sys2Proof.Laws.EncodedOpcode

/-- The word of a well-formed instruction carries the instruction's opcode (R58, R60). -/
def Statement (i : Instr) : Prop := i.wf = true → opcodeOf (encode i) = i.opcode

theorem lw (rd rs1 : RegIdx) (imm : BitVec 12) : Statement (.lw rd rs1 imm) :=
  fun _ => (encode_lw_fields rd rs1 imm).1

theorem sw (rs2 rs1 : RegIdx) (imm : BitVec 12) : Statement (.sw rs2 rs1 imm) :=
  fun _ => (encode_sw_fields rs2 rs1 imm).1

theorem add (rd rs1 rs2 : RegIdx) : Statement (.add rd rs1 rs2) :=
  fun _ => (encodeRegReg_fields _ _ rd rs1 rs2).1

theorem sub (rd rs1 rs2 : RegIdx) : Statement (.sub rd rs1 rs2) :=
  fun _ => (encodeRegReg_fields _ _ rd rs1 rs2).1

theorem slt (rd rs1 rs2 : RegIdx) : Statement (.slt rd rs1 rs2) :=
  fun _ => (encodeRegReg_fields _ _ rd rs1 rs2).1

theorem or (rd rs1 rs2 : RegIdx) : Statement (.or rd rs1 rs2) :=
  fun _ => (encodeRegReg_fields _ _ rd rs1 rs2).1

theorem and (rd rs1 rs2 : RegIdx) : Statement (.and rd rs1 rs2) :=
  fun _ => (encodeRegReg_fields _ _ rd rs1 rs2).1

theorem rdef001 (rd rs1 rs2 : RegIdx) : Statement (.rdef001 rd rs1 rs2) :=
  fun _ => (encodeRegReg_fields _ _ rd rs1 rs2).1

theorem rdef011 (rd rs1 rs2 : RegIdx) : Statement (.rdef011 rd rs1 rs2) :=
  fun _ => (encodeRegReg_fields _ _ rd rs1 rs2).1

theorem rdef100 (rd rs1 rs2 : RegIdx) : Statement (.rdef100 rd rs1 rs2) :=
  fun _ => (encodeRegReg_fields _ _ rd rs1 rs2).1

theorem rdef101 (rd rs1 rs2 : RegIdx) : Statement (.rdef101 rd rs1 rs2) :=
  fun _ => (encodeRegReg_fields _ _ rd rs1 rs2).1

theorem beq (rs1 rs2 : RegIdx) (off : BitVec 13) : Statement (.beq rs1 rs2 off) :=
  fun h => (encode_beq_fields rs1 rs2 off (by simpa only [Instr.wf, Bool.not_eq_true'] using h)).1

theorem unknown (word : Word) : Statement (.unknown word) := fun _ => rfl

end Sys2Proof.Laws.EncodedOpcode
end

