-- ==== Sys2Proof/Laws/Step.lean ====
section
/-! SUPPORT. What one step, one cycle and one more cycle of a run can do. -/

namespace Sys2Proof.Machine

theorem step_of_halted (s : State) (r : Fault) (h : s.halted = some r) : step s = .next s := by simp [step, h]

theorem step_of_running (s : State) (h : s.halted = none) :
    step s = attempt (s.fetchWord s.pc) fun w => exec (decode w) s.hostTurn := by simp [step, h]

theorem State.fetches_iff (s : State) (w : Word) :
    s.fetches w ↔ s.halted = none ∧ s.fetchWord s.pc = .ok w := by simp [State.fetches]

theorem step_of_fetches (s : State) (w : Word) (h : s.fetches w) : step s = exec (decode w) s.hostTurn := by
  obtain ⟨hr, hf⟩ := (State.fetches_iff s w).1 h
  rw [step_of_running s hr, hf, attempt_ok]

/-- A step that completes is a halted core's, or runs the instruction it fetched. -/
theorem step_next_cases (s t : State) (h : step s = .next t) :
    (∃ r, s.halted = some r ∧ t = s) ∨ ∃ w, s.fetches w ∧ exec (decode w) s.hostTurn = .next t := by
  cases hh : s.halted with
  | some r =>
    rw [step_of_halted s r hh] at h
    exact .inl ⟨r, rfl, (Host.Outcome.next.inj h).symm⟩
  | none =>
    rw [step_of_running s hh] at h
    obtain ⟨w, hw, he⟩ := attempt_next _ _ t h
    exact .inr ⟨w, (State.fetches_iff s w).2 ⟨hh, hw⟩, he⟩

/-- A step that faults could not fetch, or its instruction faulted. -/
theorem step_fault_cases (s : State) (r : Fault) (h : step s = .fault r) :
    s.halted = none ∧ (s.fetchWord s.pc = .error r ∨ ∃ w, s.fetches w ∧ exec (decode w) s.hostTurn = .fault r) := by
  cases hh : s.halted with
  | some q => simp [step_of_halted s q hh] at h
  | none =>
    rw [step_of_running s hh] at h
    refine ⟨rfl, ?_⟩
    rcases attempt_fault _ _ r h with he | ⟨w, hw, he⟩
    · exact .inl he
    · exact .inr ⟨w, (State.fetches_iff s w).2 ⟨hh, hw⟩, he⟩

/-! ### Cycles -/

theorem cycle_of_next (s t : State) (h : step s = .next t) : cycle s = t := by simp [cycle, h]

theorem cycle_of_fault (s : State) (r : Fault) (h : step s = .fault r) : cycle s = s.hostTurn.halt r := by
  simp [cycle, h]

theorem cycle_of_halted (s : State) (r : Fault) (h : s.halted = some r) : cycle s = s :=
  cycle_of_next s s (step_of_halted s r h)

@[simp] theorem cycles_zero (s : State) : cycles 0 s = s := rfl

@[simp] theorem cycles_succ (n : Nat) (s : State) : cycles (n + 1) s = cycles n (cycle s) := rfl

theorem cycles_add_one (n : Nat) (s : State) : cycles (n + 1) s = cycle (cycles n s) := by
  induction n generalizing s with
  | zero => rfl
  | succ n ih => rw [cycles_succ, ih (cycle s), ← cycles_succ]

theorem cycles_of_halted (n : Nat) (s : State) (r : Fault) (h : s.halted = some r) : cycles n s = s := by
  induction n with
  | zero => rfl
  | succ n ih => rw [cycles_succ, cycle_of_halted s r h, ih]

/-! ### The host's run -/

theorem run_succ_of_next (M : Host.Core) (n : Nat) (s t : M.State) (h : M.step s = .next t) :
    M.run (n + 1) s = M.run n t := by rw [Host.Core.run, h]

theorem run_succ_of_fault (M : Host.Core) (n : Nat) (s : M.State) (r : M.Fault) (h : M.step s = .fault r) :
    M.run (n + 1) s = .fault r := by rw [Host.Core.run, h]

theorem core_run_zero (s : State) : Host.Core.run core 0 s = .next s := rfl

theorem core_run_of_next (n : Nat) (s t : State) (h : step s = .next t) :
    Host.Core.run core (n + 1) s = Host.Core.run core n t := run_succ_of_next core n s t h

theorem core_run_of_fault (n : Nat) (s : State) (r : Fault) (h : step s = .fault r) :
    Host.Core.run core (n + 1) s = .fault r := run_succ_of_fault core n s r h

/-- A property every cycle keeps holds after any number of cycles. -/
theorem cycles_keep (P : State → Prop) (hcycle : ∀ s, P s → P (cycle s)) (n : Nat) (s : State) (h : P s) :
    P (cycles n s) := by
  induction n generalizing s with
  | zero => exact h
  | succ n ih => exact ih _ (hcycle s h)

end Sys2Proof.Machine
end

