-- ==== Sys2Proof/Tests/Slice0.lean ====
section
/-! SUPPORT. The model's own tests. T<n> and P<n> are tables and programs of spec/95_test_vectors.md, where the
expected values come from; `witness_<obligation>` shows a state and operands that meet an obligation's hypotheses. -/

namespace Sys2Proof.Tests

open Sys2Proof.Machine

/-! ### Helpers -/

/-- The 32 registers, 0 but for those listed. -/
def regsOf (rs : List (RegIdx × Word)) : Vector Word 32 :=
  rs.foldl (fun v c => v.set c.1.val c.2) (Vector.replicate 32 0)

/-- A launch with the word `w` at `pc`, the registers and data words listed, and `n` data words. -/
def small (n : Nat) (pc w : Word) (rs : List (RegIdx × Word)) (ds : List (Nat × Word)) : State :=
  State.launch { Config.resetLaunch with
    resetVector := pc, program := [(pc.toNat, w)], regInit := regsOf rs, dmemInit := ds, dmemWords := n }

/-- The vectors' usual launch: pc 0x1000, 0x4000 data words. -/
def at1000 (w : Word) (rs : List (RegIdx × Word)) (ds : List (Nat × Word)) : State := small 0x4000 0x1000 w rs ds

/-- The outcome is a next state with the property. -/
def nextHas (o : Host.Outcome State Fault Refusal) (p : State → Bool) : Bool :=
  match o with
  | .next t => p t
  | .fault _ => false
  | .refused _ => false

/-- The outcome is this fault. -/
def faultsWith (o : Host.Outcome State Fault Refusal) (r : Fault) : Bool :=
  match o with
  | .next _ => false
  | .fault q => q == r
  | .refused _ => false

/-! ### Well-formedness: one ill-formed term for each check -/

theorem test_wf_beq_odd_offset_refused : (Instr.beq 1 2 0x0003).wf = false := by decide
theorem test_wf_beq_even_offset_accepted : (Instr.beq 1 2 0x1FF0).wf = true := by decide
theorem test_wf_unknown_with_lw_opcode_refused : (Instr.unknown 0xFFC4A303).wf = false := by decide
theorem test_wf_unknown_with_sw_opcode_refused : (Instr.unknown 0x0064A423).wf = false := by decide
theorem test_wf_unknown_with_regreg_opcode_refused : (Instr.unknown 0x002081B3).wf = false := by decide
theorem test_wf_unknown_with_beq_opcode_refused : (Instr.unknown 0xFE0208E3).wf = false := by decide
theorem test_wf_unknown_accepted : (Instr.unknown 0x00500093).wf = true := by decide

/-! ### Decoding: words of T1 and T3, and words laid out field by field from the opcode table's rows -/

theorem test_decode_lw : decode (0b111111111100#12 ++ 0b01001#5 ++ 0b010#3 ++ 0b00110#5 ++ 0b0000011#7)
    = .lw 6 9 0xFFC := by decide
theorem test_decode_lw_ignores_funct3 : decode 0x00411083 = .lw 1 2 4 := by decide
theorem test_decode_sw : decode (0b0000000#7 ++ 0b00110#5 ++ 0b01001#5 ++ 0b010#3 ++ 0b01000#5 ++ 0b0100011#7)
    = .sw 6 9 8 := by decide
theorem test_decode_sw_high_group : decode 0x7E112023 = .sw 1 2 0x7E0 := by decide
theorem test_decode_sw_ignores_funct3 : decode 0x00110223 = .sw 1 2 4 := by decide
theorem test_decode_add : decode (0b0000000#7 ++ 0b00010#5 ++ 0b00001#5 ++ 0b000#3 ++ 0b00011#5 ++ 0b0110011#7)
    = .add 3 1 2 := by decide
theorem test_decode_add_other_funct7 : decode 0xBE2081B3 = .add 3 1 2 ∧ decode 0x022081B3 = .add 3 1 2 := by decide
theorem test_decode_sub : decode (0b0100000#7 ++ 0b00010#5 ++ 0b00001#5 ++ 0b000#3 ++ 0b00011#5 ++ 0b0110011#7)
    = .sub 3 1 2 := by decide
theorem test_decode_sub_other_funct7 : decode 0xFE2081B3 = .sub 3 1 2 := by decide
theorem test_decode_slt : decode (0b0000000#7 ++ 0b00010#5 ++ 0b00001#5 ++ 0b010#3 ++ 0b00011#5 ++ 0b0110011#7)
    = .slt 3 1 2 := by decide
theorem test_decode_slt_ignores_bit_30 : decode 0x4020A1B3 = .slt 3 1 2 := by decide
theorem test_decode_or : decode (0b0000000#7 ++ 0b00110#5 ++ 0b00101#5 ++ 0b110#3 ++ 0b00100#5 ++ 0b0110011#7)
    = .or 4 5 6 := by decide
theorem test_decode_and : decode (0b0000000#7 ++ 0b00110#5 ++ 0b00101#5 ++ 0b111#3 ++ 0b00100#5 ++ 0b0110011#7)
    = .and 4 5 6 := by decide
theorem test_decode_rdef001 : decode 0x002091B3 = .rdef001 3 1 2 := by decide
theorem test_decode_rdef011 : decode 0x0020B1B3 = .rdef011 3 1 2 := by decide
theorem test_decode_rdef100 : decode 0x0020C1B3 = .rdef100 3 1 2 := by decide
theorem test_decode_rdef101 : decode 0x0020D1B3 = .rdef101 3 1 2 ∧ decode 0x4020D1B3 = .rdef101 3 1 2 := by decide
theorem test_decode_beq : decode (0b1#1 ++ 0b111111#6 ++ 0b00000#5 ++ 0b00100#5 ++ 0b000#3 ++ 0b1000#4 ++ 0b1#1 ++
    0b1100011#7) = .beq 4 0 0x1FF0 := by decide
theorem test_decode_beq_ignores_funct3 : decode 0x00209463 = .beq 1 2 8 := by decide
theorem test_decode_unknown :
    [0x00000000, 0xFFFFFFFF, 0x00000013, 0x00500093, 0x00000073, 0x0000006F, 0x00008067, 0x0FF0000F, 0x000012B7,
      0x00004001].all (fun w : Word => decode w == .unknown w) = true := by decide
theorem test_decode_table_word : decodeTableWord 32 0x002081B3 = some (.add 3 1 2) ∧
    decodeTableWord 32 0x100000000 = none ∧ decodeTableWord 48 0 = none := by decide

/-! ### Encoding: the words of T1 and P1 from their instructions -/

theorem test_encode_loads_and_stores : encode (.lw 6 9 0xFFC) = 0xFFC4A303 ∧ encode (.lw 1 2 0x800) = 0x80012083 ∧
    encode (.sw 1 2 0x7FF) = 0x7E112FA3 ∧ encode (.sw 1 2 0x01F) = 0x00112FA3 := by decide
theorem test_encode_branches : encode (.beq 4 0 0x1FF0) = 0xFE0208E3 ∧ encode (.beq 1 2 0x1000) = 0x80208063 ∧
    encode (.beq 1 2 0x0800) = 0x002080E3 ∧ encode (.beq 1 2 0x0FFE) = 0x7E208FE3 := by decide
theorem test_encode_regreg : encode (.add 3 1 2) = 0x002081B3 ∧ encode (.sub 3 1 2) = 0x402081B3 ∧
    encode (.slt 3 1 2) = 0x0020A1B3 ∧ encode (.or 4 5 6) = 0x0062E233 ∧ encode (.and 4 5 6) = 0x0062F233 ∧
    encode (.rdef100 2 5 5) = 0x0052C133 := by decide

/-! ### Bit fields and immediates (T1) -/

theorem test_bits : (bits 0xFFC4A303 6 0).toNat = 0x03 ∧ (bits 0xFFC4A303 11 7).toNat = 6 ∧
    (bits 0xFFC4A303 14 12).toNat = 2 ∧ (bits 0xFFC4A303 19 15).toNat = 9 ∧ (bits 0xFFC4A303 24 20).toNat = 0x1C ∧
    (bits 0xFFC4A303 31 25).toNat = 0x7F ∧ (bits 0xFFC4A303 31 20).toNat = 0xFFC ∧
    (bits 0xFFC4A303 31 0).toNat = 0xFFC4A303 ∧ (bits 0xFFC4A303 31 31).toNat = 1 := by decide
theorem test_sext : sext (0xFFC : BitVec 12) = 0xFFFFFFFC ∧ sext (0x7FF : BitVec 12) = 0x7FF ∧
    sext (0x800 : BitVec 12) = 0xFFFFF800 ∧ sext (0x1FF0 : BitVec 13) = 0xFFFFFFF0 ∧
    sext (0x0800 : BitVec 13) = 0x800 ∧ sext (0x1000 : BitVec 13) = 0xFFFFF000 := by decide
theorem test_immediates_of_a_load : immI 0xFFC4A303 = 0xFFFFFFFC ∧ immS 0xFFC4A303 = 0xFFFFFFE6 ∧
    immB 0xFFC4A303 = 0xFFFFF7E6 := by decide
theorem test_immediates_of_a_store : immI 0x0064A423 = 6 ∧ immS 0x0064A423 = 8 ∧ immB 0x0064A423 = 8 := by decide
theorem test_immediates_of_a_branch : immI 0xFE0208E3 = 0xFFFFFFE0 ∧ immS 0xFE0208E3 = 0xFFFFFFF1 ∧
    immB 0xFE0208E3 = 0xFFFFFFF0 := by decide
theorem test_immI_corners : immI 0x7FF12083 = 0x7FF ∧ immI 0x80012083 = 0xFFFFF800 ∧
    immI 0xFFF12083 = 0xFFFFFFFF := by decide
theorem test_immS_corners : immS 0x80112023 = 0xFFFFF800 ∧ immS 0x00112FA3 = 0x1F ∧ immS 0x7E112023 = 0x7E0 := by decide
theorem test_immB_corners : immB 0x7E208FE3 = 0xFFE ∧ immB 0x80208063 = 0xFFFFF000 ∧ immB 0x002080E3 = 0x800 ∧
    immB 0x7E208F63 = 0x7FE ∧ immB 0x00208163 = 2 ∧ immB 0xFE208FE3 = 0xFFFFFFFE := by decide

/-! ### ALU and zero flag (T2) -/

theorem test_alu_add : alu 0x7FFFFFFF 1 .add = 0x80000000 ∧ alu 5 0xFFFFFFFB .add = 0 ∧
    zeroFlag (alu 0x80000000 0x80000000 .add) = true := by decide
theorem test_alu_subtract : alu 0 1 .subtract = 0xFFFFFFFF ∧ alu 0x7FFFFFFF 0xFFFFFFFF .subtract = 0x80000000 ∧
    zeroFlag (alu 5 5 .subtract) = true ∧ zeroFlag (alu 3 5 .subtract) = false := by decide
theorem test_alu_logical_and : alu 2 4 .logicalAnd = 1 ∧ alu 5 0 .logicalAnd = 0 ∧
    alu 0x80000000 1 .logicalAnd = 1 := by decide
theorem test_alu_logical_or : alu 0 0 .logicalOr = 0 ∧ alu 0 0x80000000 .logicalOr = 1 ∧
    alu 6 10 .logicalOr = 1 := by decide
theorem test_alu_set_less_than : alu 5 3 .setLessThan = 3 ∧ alu 1 0xFFFFFFFF .setLessThan = 0xFFFFFFFF ∧
    alu 0x80000000 0x7FFFFFFF .setLessThan = 0x80000000 ∧ alu 4 4 .setLessThan = 4 := by decide

/-! ### One step of each instruction -/

/-- T4, third line: the address comes from the old x9. -/
theorem test_lw_over_its_base :
    nextHas (step (at1000 0x0004A483 [(9, 0x2004)] [(0x801, 0x30)])) (fun t => t.readReg 9 == 0x30 && t.pc == 0x1004)
      = true := by decide

/-- T4, sixth line: the two low address bits are dropped. -/
theorem test_lw_drops_low_bits :
    nextHas (step (at1000 0x0024A383 [(9, 0x2004)] [(0x801, 0xAABBCCDD)])) (fun t => t.readReg 7 == 0xAABBCCDD)
      = true := by decide

/-- T4, second line. -/
theorem test_sw :
    nextHas (step (at1000 0x0064A023 [(9, 0x2004), (6, 10)] []))
      (fun t => t.dataWord 0x801 == 10 && t.dataWord 0x800 == 0 && t.pc == 0x1004) = true := by decide

/-- T4, fifth line: a whole word is stored whatever the two low address bits. -/
theorem test_sw_drops_low_bits :
    nextHas (step (at1000 0x0054A1A3 [(9, 0x2004), (5, 0xAABBCCDD)] []))
      (fun t => t.dmem == [(0x801, 0xAABBCCDD)]) = true := by decide

/-- P4, cycle 2: register 0 is written. -/
theorem test_add_writes_register_zero :
    nextHas (step (at1000 0x00528033 [(5, 9)] [])) (fun t => t.readReg 0 == 0x12 && t.pc == 0x1004) = true := by decide

/-- P4, cycle 6: register 0 is read as an ordinary register. -/
theorem test_sub_reads_register_zero :
    nextHas (step (at1000 0x40500233 [(5, 9), (0, 0x12)] [])) (fun t => t.readReg 4 == 9) = true := by decide

/-- T2, set-less-than of 0xFFFFFFFF and 1, in the word of T3. -/
theorem test_slt :
    nextHas (step (at1000 0x0020A1B3 [(1, 0xFFFFFFFF), (2, 1)] [])) (fun t => t.readReg 3 == 0xFFFFFFFF)
      = true := by decide

/-- P1, variant B-OR, cycle 3. -/
theorem test_or :
    nextHas (step (at1000 0x0062E233 [(5, 6), (6, 10)] [])) (fun t => t.readReg 4 == 1) = true := by decide

/-- P1, variant B-AND, cycle 3. -/
theorem test_and :
    nextHas (step (at1000 0x0062F233 [(5, 6), (6, 10)] [])) (fun t => t.readReg 4 == 1) = true := by decide

/-- T3: `sll`, `sltu`, `xor` and `sra` all add. -/
theorem test_rdef :
    ([0x002091B3, 0x0020B1B3, 0x0020C1B3, 0x4020D1B3] : List Word).all
      (fun w => nextHas (step (at1000 w [(1, 12), (2, 5)] [])) (fun t => t.readReg 3 == 17)) = true := by decide

/-- T5, second and first lines. -/
theorem test_beq_not_taken_and_taken :
    nextHas (step (at1000 0x00208463 [(1, 5), (2, 6)] [])) (fun t => t.pc == 0x1004) = true ∧
    nextHas (step (at1000 0x00208463 [(1, 5), (2, 5)] [])) (fun t => t.pc == 0x1008) = true := by decide

/-- T5, the wrapping line and the last line (one sign extension). -/
theorem test_beq_wraps_and_extends_once :
    nextHas (step (small 0x4000 4 0xFE208CE3 [] [])) (fun t => t.pc == 0xFFFFFFFC) = true ∧
    nextHas (step (at1000 0x002080E3 [] [])) (fun t => t.pc == 0x1800) = true := by decide

/-- T6: an `addi` changes nothing but the pc, and a discarded sum outside data memory is no fault. -/
theorem test_unknown :
    nextHas (step (at1000 0x00500093 [] [])) (fun t => t.readReg 1 == 0 && t.pc == 0x1004) = true ∧
    nextHas (step (at1000 0x00208067 [(1, 0xFFFFFFFF), (2, 0xFFFFFFFF)] [])) (fun t => t.pc == 0x1004) = true := by
  decide

/-! ### Faults, halting, collaborators, placing an instruction -/

/-- T4, seventh and eighth lines; P5b with one more data word. -/
theorem test_data_out_of_range :
    faultsWith (step (small 0x800 0x1000 0xFFC4A303 [(9, 0x2004)] [])) (.dataOutOfRange 0x2000) = true ∧
    faultsWith (step (at1000 0x0064A023 [(9, 0xFFFFFFFC), (6, 1)] [])) (.dataOutOfRange 0xFFFFFFFC) = true ∧
    nextHas (step (small 0x801 0x1000 0xFFC4A303 [(9, 0x2004)] [])) (fun t => t.pc == 0x1004) = true := by decide

/-- P5a, cycle 2, and P5c, cycle 2. -/
theorem test_fetch_faults :
    faultsWith (step { at1000 0 [] [] with pc := 0x1006 }) (.fetchMisaligned 0x1006) = true ∧
    faultsWith (step { at1000 0 [] [] with pc := 0x1004 }) (.fetchOutOfRange 0x1004) = true := by decide

/-- P5a, cycles 2 and 3: the fault leaves the halted mark, and nothing happens after it. -/
theorem test_halted_is_sticky :
    cycle { at1000 0 [] [] with pc := 0x1006 } = { at1000 0 [] [] with pc := 0x1006, halted := some (.fetchMisaligned 0x1006) } ∧
    nextHas (step ({ at1000 0 [] [] with pc := 0x1006 }.halt (.fetchMisaligned 0x1006)))
      (fun t => t == { at1000 0 [] [] with pc := 0x1006 }.halt (.fetchMisaligned 0x1006)) = true := by decide

/-- P6, the cycle after the host's write of 2 to word 0x900. -/
def p6 : State := { at1000 0x0004A383 [(9, 0x2400), (6, 1)] [(0x900, 1)] with
  hostWriteRegion := [⟨0x900, 1⟩], hostInbox := [[⟨0x900, 2⟩]] }

theorem test_host_write_lands_before_the_cycle : nextHas (step p6) (fun t => t.readReg 7 == 2) = true := by decide

theorem test_host_write_outside_its_region_does_not_land :
    ({ p6 with hostWriteRegion := [⟨0x901, 1⟩] }.hostTurn.dataWord 0x900) = 1 := by decide

/-- R133, R141: a word placed at the reset vector is the first to run. -/
theorem test_place_word_at_reset :
    nextHas (step (State.reset.withFetchWord 32 0x0064A023)) (fun t => t.pc == 0x1004) = true ∧
    faultsWith (step State.reset) (.fetchOutOfRange 0x1000) = true := by decide

theorem test_reset_memory_is_canonical : Memory.wf State.reset.dmem ∧ Memory.wfCode State.reset.imem := by decide

theorem test_storing_zero_unlists : Memory.store [(1, 5), (3, 7)] 3 0 = [(1, 5)] ∧
    Memory.store [(1, 5), (3, 7)] 2 9 = [(1, 5), (2, 9), (3, 7)] := by decide

/-- P1, cycle 1, under the intended and the literal reading of the seed (C1). -/
theorem test_reference_launch_first_cycle :
    nextHas (step (State.launch (referenceLaunch .byteAddress .orOp Config.resetLaunch)))
      (fun t => t.readReg 6 == 10 && t.pc == 0x1004) = true ∧
    nextHas (step (State.launch (referenceLaunch .wordIndex .orOp Config.resetLaunch)))
      (fun t => t.readReg 6 == 0 && t.dataWord 0x2000 == 10) = true := by decide

/-- P1's encodings. -/
theorem test_reference_program :
    referenceProgram .orOp =
      [(0x1000, 0xFFC4A303), (0x1004, 0x0064A023), (0x1008, 0x0062E233), (0x100C, 0xFE0208E3)] ∧
    encode AndOrChoice.andOp.instr = 0x0062F233 := by decide

/-- R85: the ports of a load and of a store. -/
theorem test_ports :
    ((at1000 0xFFC4A303 [(9, 0x2004)] []).ports 0xFFC4A303).dmemAddr = 0x800 ∧
    ((at1000 0xFFC4A303 [(9, 0x2004)] []).ports 0xFFC4A303).dmemRe = true ∧
    ((at1000 0x0064A023 [(9, 0x2004), (6, 10)] []).ports 0x0064A023).dmemWe = true ∧
    ((at1000 0x0064A023 [(9, 0x2004), (6, 10)] []).ports 0x0064A023).dmemWdata = 10 := by decide

/-! ### Witnesses: each obligation's hypotheses are met, clause by clause

For a hypothesis about a state, `lwS` and its neighbours are states one step from P1, P5 and P6. -/

/-- A load from the last data word, index 0x3FFF, at 0xFFFC. -/
def lwS : State := at1000 0x00012083 [(2, 0xFFFC)] [(0x3FFF, 7)]

/-- A store to the last data word. -/
def swS : State := at1000 0x00112023 [(1, 9), (2, 0xFFFC)] []

/-- A load one word beyond data memory. -/
def lwOut : State := at1000 0x00012083 [(2, 0x10000)] []

/-- A taken branch, `beq x1, x1, 6`. -/
def beqS : State := at1000 0x00108363 [(1, 1)] []

/-- An addition. -/
def addS : State := at1000 0x002081B3 [(1, 1), (2, 2)] []

/-- A halted core. -/
def haltedS : State := addS.halt (.fetchOutOfRange 0x1000)

theorem witness_DecodeInvertsEncode : (Instr.lw 31 31 0xFFF).wf = true ∧ (Instr.beq 31 0 0x1FFE).wf = true ∧
    (Instr.unknown 0xFFFFFFFF).wf = true := by decide

theorem witness_IgnoredBitsTakeNoPartInDecoding :
    (0xBE2081B3 : Word) &&& (decode 0x002081B3).decodedBits = 0x002081B3 &&& (decode 0x002081B3).decodedBits ∧
    (0x00411083 : Word) &&& (decode 0x00412083).decodedBits = 0x00412083 &&& (decode 0x00412083).decodedBits := by
  decide

theorem witness_UnimplementedRiscvWordsAreUnknown : opcodeOf 0x00500093 = 0x13 ∧
    bits (0x00004001 : Word) 1 0 ≠ (0b11 : BitVec 2) := by decide

theorem witness_BitFieldIsQuotientAndRemainder : (31 ≤ 31 ∧ 0 ≤ 31) ∧ (0 ≤ 31 ∧ 31 ≤ 31) := by decide

theorem witness_SignExtensionIsTwosComplement : (1 ≤ 1 ∧ 1 ≤ 32) ∧ (1 ≤ 32 ∧ 32 ≤ 32) ∧
    (0x7FF : BitVec 12).toNat < 2 ^ 11 ∧ ¬ (0x800 : BitVec 12).toNat < 2 ^ 11 := by decide

theorem witness_EncodedImmediatesAreRecovered : (0x1FFE : BitVec 13).getLsbD 0 = false := by decide

theorem witness_ControlSignalsByOpcode : (0x13 : BitVec 7) ∉ recognisedOpcodes := by decide

theorem witness_AluDecoderContract :
    (funct3Of 0x402081B3 = Config.f3AddSub ∧ (0x402081B3 : Word).getLsbD 30 = true ∧
      (0x402081B3 : Word).getLsbD 5 = true) ∧
    (funct3Of 0x002081B3 = Config.f3AddSub ∧
      ¬ ((0x002081B3 : Word).getLsbD 30 = true ∧ (0x002081B3 : Word).getLsbD 5 = true)) ∧
    funct3Of 0x0020A1B3 = Config.f3Slt ∧ funct3Of 0x0020E1B3 = Config.f3Or ∧ funct3Of 0x0020F1B3 = Config.f3And ∧
    funct3Of 0x0020C1B3 ∉ [Config.f3AddSub, Config.f3Slt, Config.f3Or, Config.f3And] := by decide

theorem witness_AluLogicalResultsAreBooleans :
    ((2 : Word) ≠ 0 ∧ (4 : Word) ≠ 0) ∧ ¬ ((0 : Word) ≠ 0 ∧ (5 : Word) ≠ 0) ∧ ((0 : Word) ≠ 0 ∨ (5 : Word) ≠ 0) ∧
    ¬ ((0 : Word) ≠ 0 ∨ (0 : Word) ≠ 0) := by decide

theorem witness_AluSetLessThanIsSignedMinimum :
    (0x80000000 : Word).toInt < (0x7FFFFFFF : Word).toInt ∧ ¬ (4 : Word).toInt < (4 : Word).toInt := by decide

theorem witness_LoadWordEffect :
    wordIndex (effectiveAddr (lwS.readReg 2) 0) = 0x3FFF ∧ wordIndex (effectiveAddr (lwS.readReg 2) 0) < lwS.dmemWords ∧
    wordIndex (effectiveAddr (lwS.readReg 2) 4) = 0x4000 ∧
    lwS.dmemWords ≤ wordIndex (effectiveAddr (lwS.readReg 2) 4) := by decide

theorem witness_StoreWordEffect :
    wordIndex (effectiveAddr (swS.readReg 2) 3) = 0x3FFF ∧ wordIndex (effectiveAddr (swS.readReg 2) 3) < swS.dmemWords ∧
    wordIndex (effectiveAddr (swS.readReg 2) 4) = 0x4000 ∧
    swS.dmemWords ≤ wordIndex (effectiveAddr (swS.readReg 2) 4) := by decide

theorem witness_AddEffect : opcodeOf 0x002081B3 = Config.opcR ∧ funct3Of 0x002081B3 = Config.f3AddSub ∧
    (0x002081B3 : Word).getLsbD 30 = false := by decide

theorem witness_SubEffect : opcodeOf 0x402081B3 = Config.opcR ∧ funct3Of 0x402081B3 = Config.f3AddSub ∧
    (0x402081B3 : Word).getLsbD 30 = true := by decide

theorem witness_SltEffect : opcodeOf 0x4020A1B3 = Config.opcR ∧ funct3Of 0x4020A1B3 = Config.f3Slt := by decide

theorem witness_OrEffect : opcodeOf 0x0062E233 = Config.opcR ∧ funct3Of 0x0062E233 = Config.f3Or := by decide

theorem witness_AndEffect : opcodeOf 0x0062F233 = Config.opcR ∧ funct3Of 0x0062F233 = Config.f3And := by decide

theorem witness_RdefEffect :
    (opcodeOf 0x002091B3 = Config.opcR ∧ funct3Of 0x002091B3 = 0b001) ∧
    (opcodeOf 0x0020B1B3 = Config.opcR ∧ funct3Of 0x0020B1B3 = 0b011) ∧
    (opcodeOf 0x0020C1B3 = Config.opcR ∧ funct3Of 0x0020C1B3 = 0b100) ∧
    (opcodeOf 0x4020D1B3 = Config.opcR ∧ funct3Of 0x4020D1B3 = 0b101) ∧
    Instr.rdef101 3 1 2 ∈ [Instr.rdef001 3 1 2, .rdef011 3 1 2, .rdef100 3 1 2, .rdef101 3 1 2] := by decide

theorem witness_BranchEqualEffect : opcodeOf 0x00209463 = Config.opcBeq ∧ beqS.readReg 1 = beqS.readReg 1 ∧
    beqS.readReg 1 ≠ beqS.readReg 2 := by decide

theorem witness_UnknownEffect : opcodeOf 0x00500093 ∉ recognisedOpcodes ∧ opcodeOf 0 ∉ recognisedOpcodes := by decide

theorem witness_RegisterZeroIsOrdinary : wordIndex (effectiveAddr (lwS.readReg 2) 0) < lwS.dmemWords ∧
    (Instr.sub 0 1 2, AluCode.subtract) ∈ regRegForms 0 1 2 := by decide

theorem witness_SourcesAreReadBeforeTheDestinationIsWritten :
    wordIndex (lwS.readReg 2 + sext (0 : BitVec 12)) < lwS.dmemWords ∧
    ((1 : RegIdx) = 1 ∨ (1 : RegIdx) = 2) ∧ (Instr.slt 1 1 2, AluCode.setLessThan) ∈ regRegForms 1 1 2 ∧
    ((31 : RegIdx) = 0 ∨ (31 : RegIdx) = 31) ∧ (Instr.sub 31 0 31, AluCode.subtract) ∈ regRegForms 31 0 31 := by decide

theorem witness_DataAccessUsesTheWordOfItsAddress :
    (0xFFFF : Word).toNat / 4 = 0x3FFF ∧ (0xFFFF : Word).toNat / 4 < lwS.dmemWords ∧
    lwS.dmemWords ≤ (0x10000 : Word).toNat / 4 := by decide

/-- A store's cycle, for a word it does not store to and no host asks for. -/
theorem witness_OnlyAStoreOrTheHostChangesADataWord :
    (∃ t, step swS = .next t) ∧ ¬ swS.storesTo 0x3FFE ∧ ¬ swS.hostWritesTo 0x3FFE := by
  refine ⟨⟨_, rfl⟩, ?_, ?_⟩
  · rintro ⟨rs2, rs1, imm, ⟨w, ⟨-, hw⟩, hd⟩, hk⟩
    have e : swS.hostTurn.fetchWord swS.hostTurn.pc = .ok 0x00112023 := rfl
    rw [e] at hw
    cases hw
    have d : decode 0x00112023 = .sw 1 2 0 := by decide
    rw [d] at hd
    cases hd
    exact absurd hk (by decide)
  · rintro ⟨due, later, h, hi, -⟩
    cases hi

/-- P1's store, then a load of the same word: the word 0x801, `n = 0`. -/
def storeThenLoadS : State :=
  { at1000 0x0064A023 [(9, 0x2004), (6, 10)] [] with imem := [(0x1000, 0x0064A023), (0x1004, 0x0004A383)] }

theorem witness_StoreThenLoadReturnsTheStoredWord :
    storeThenLoadS.executes (.sw 6 9 0) ∧ wordIndex (effectiveAddr (storeThenLoadS.hostTurn.readReg 9) 0) = 0x801 ∧
    ∃ s', step storeThenLoadS = .next s' ∧
      (∀ m, m < 0 → ¬ (cycles m s').storesTo 0x801) ∧ (∀ m, m ≤ 0 → ¬ (cycles m s').hostWritesTo 0x801) ∧
      (cycles 0 s').executes (.lw 7 9 0) ∧
      wordIndex (effectiveAddr ((cycles 0 s').hostTurn.readReg 9) 0) = 0x801 := by
  refine ⟨⟨0x0064A023, ⟨rfl, rfl⟩, by decide⟩, by decide, _, rfl, fun m hm => absurd hm (Nat.not_lt_zero m), ?_,
    ⟨0x0004A383, ⟨rfl, rfl⟩, by decide⟩, by decide⟩
  rintro m hm ⟨due, later, h, hi, -⟩
  obtain rfl := Nat.le_zero.1 hm
  cases hi

theorem witness_StepRunsTheDecodedInstruction : p6.halted = none ∧ bits p6.hostTurn.pc 1 0 = 0 ∧
    Memory.wordAt? p6.hostTurn.imem p6.hostTurn.pc.toNat = some 0x0004A383 := by decide

theorem witness_StepWithoutHostMovesRunsTheDecodedInstruction : addS.halted = none ∧ addS.hostInbox = [] ∧
    bits addS.pc 1 0 = 0 ∧ Memory.wordAt? addS.imem addS.pc.toNat = some 0x002081B3 := by decide

theorem witness_StepCompletesExactlyWhenReady :
    (addS.halted = none ∧ addS.ready) ∧ lwOut.halted = none ∧ ∃ r, step lwOut = .fault r :=
  ⟨⟨rfl, .add 3 1 2, ⟨0x002081B3, ⟨rfl, rfl⟩, by decide⟩, trivial⟩, rfl, _, rfl⟩

/-- A branch between equal registers, and a word that is no branch. -/
theorem witness_NextPcIsSequentialOrTakenBranch :
    (beqS.fetches 0x00108363 ∧ (∃ t, step beqS = .next t) ∧
      opcodeOf 0x00108363 = Config.opcBeq ∧ beqS.readReg (rs1Of 0x00108363) = beqS.readReg (rs2Of 0x00108363)) ∧
    (addS.fetches 0x002081B3 ∧ (∃ t, step addS = .next t) ∧ opcodeOf 0x002081B3 ≠ Config.opcBeq) :=
  ⟨⟨⟨rfl, rfl⟩, ⟨_, rfl⟩, by decide, by decide⟩, ⟨rfl, rfl⟩, ⟨_, rfl⟩, by decide⟩

/-- A cycle that changes a register, and one that changes a data word. -/
theorem witness_OneCycleChangesOnlyItsTargets :
    (addS.fetches 0x002081B3 ∧ ∃ t, step addS = .next t ∧ t.readReg 3 ≠ addS.readReg 3) ∧
    (swS.fetches 0x00112023 ∧ ∃ t, step swS = .next t ∧ t.dataWord 0x3FFF ≠ swS.hostTurn.dataWord 0x3FFF) :=
  ⟨⟨⟨rfl, rfl⟩, _, rfl, by decide⟩, ⟨rfl, rfl⟩, _, rfl, by decide⟩

theorem witness_PortsDescribeTheDataAccess :
    ((∃ t, addS.datapath 0x002081B3 = .next t) ∧ (addS.ports 0x002081B3).dmemWe = false) ∧
    ((∃ t, swS.datapath 0x00112023 = .next t) ∧ (swS.ports 0x00112023).dmemWe = true) ∧
    ((∃ t, lwS.datapath 0x00012083 = .next t) ∧ (lwS.ports 0x00012083).dmemRe = true) :=
  ⟨⟨⟨_, rfl⟩, by decide⟩, ⟨⟨_, rfl⟩, by decide⟩, ⟨_, rfl⟩, by decide⟩

theorem witness_FetchFaultsByAlignmentThenRange :
    addS.halted = none ∧ ({ addS with pc := 0x1002 } : State).pc.toNat % 4 ≠ 0 ∧
    ({ addS with pc := 0xFFFFFFFC } : State).pc.toNat % 4 = 0 ∧
    Memory.wordAt? ({ addS with pc := 0xFFFFFFFC } : State).imem 0xFFFFFFFC = none := by decide

/-- One state for each of the three causes. -/
theorem witness_StepFaultsOnlyAsTheRulesSay :
    step { addS with pc := 0x1002 } = .fault (.fetchMisaligned 0x1002) ∧
    step { addS with pc := 0xFFFFFFFC } = .fault (.fetchOutOfRange 0xFFFFFFFC) ∧
    step lwOut = .fault (.dataOutOfRange 0x10000) := ⟨rfl, rfl, rfl⟩

theorem witness_FaultCommitsNothingAndHaltsForGood :
    step lwOut = .fault (.dataOutOfRange 0x10000) ∧ haltedS.halted = some (.fetchOutOfRange 0x1000) := ⟨rfl, rfl⟩

/-- A run that goes through and stays unhalted, and one that stops. -/
theorem witness_HostRunAgreesWithCycles :
    (∃ t, Host.Core.run core 1 addS = .next t) ∧ addS.runsSafely 1 ∧
    Host.Core.run core 2 addS = .fault (.fetchOutOfRange 0x1004) := ⟨⟨_, rfl⟩, rfl, rfl⟩

theorem witness_HostTurnWritesOnlyItsRegion : p6.hostTurn.dataWord 0x900 ≠ p6.dataWord 0x900 := by decide

/-- Two writes of one turn to the last data word. -/
def hostS : State := { addS with
  hostWriteRegion := [⟨0x3FFE, 2⟩], hostInbox := [[⟨0x3FFF, 1⟩, ⟨0x3FFF, 2⟩, ⟨0x3FFE, 3⟩], []] }

theorem witness_LastHostWriteOfATurnStands :
    regionHas hostS.hostWriteRegion 0x3FFF = true ∧ 0x3FFF < hostS.dmemWords ∧
    (∀ h ∈ ([⟨0x3FFE, 3⟩] : List HostWrite), h.index ≠ 0x3FFF) ∧
    hostS.hostInbox = ([⟨0x3FFF, 1⟩] ++ ⟨0x3FFF, 2⟩ :: [⟨0x3FFE, 3⟩]) :: [[]] := by decide

theorem witness_EmptyHostRegionMakesRunsDeterministic : addS.hostWriteRegion = [] := rfl

/-- A launch with a repeated data word and a repeated code address, a code address that is none, and bounds met. -/
def launchP : Launch := { Config.resetLaunch with
  dmemWords := 1, dmemInit := [(0, 1), (0, 2)],
  program := [(0x1000, 0), (0x1000, 0x002081B3), (0x1002, 0), (0xFFFFFFFC, 0)] }

theorem witness_LaunchHoldsItsParameters :
    0 < launchP.dmemWords ∧ isCodeAddress 0xFFFFFFFC ∧ ¬ isCodeAddress 0x1002 ∧ ¬ isCodeAddress 0x100000000 ∧
    (State.launch launchP).dataWord 0 = 2 ∧ Memory.wordAt? (State.launch launchP).imem 0x1000 = some 0x002081B3 := by
  decide

theorem witness_FirstCycleRunsTheResetVectorWord : launchP.hostMoves = [] ∧ launchP.resetVector.toNat % 4 = 0 ∧
    launchP.program.reverse.find? (fun c => c.1 == launchP.resetVector.toNat) =
      some (launchP.resetVector.toNat, 0x002081B3) := by decide

theorem witness_ResetStateValues : (31 : RegIdx) ≠ 5 ∧ (31 : RegIdx) ≠ 9 := by decide

theorem witness_InvariantHoldsAtLaunch : dmemWordsAllowed launchP.dmemWords ∧ dmemWordsAllowed (2 ^ 29) ∧
    launchP.resetVector.getLsbD 0 = false := by decide

theorem witness_InvariantIsKeptByEveryStep : swS.Inv ∧ ∃ t, step swS = .next t :=
  ⟨⟨by decide, by decide, by decide, by decide, by decide⟩, _, rfl⟩

theorem witness_CanonicalMemoriesThatReadAlikeAreEqual :
    Memory.wf (Memory.store [(3, 7)] 1 5) ∧ Memory.wf [(1, 5), (3, 7)] ∧
    ∀ k, Memory.read (Memory.store [(3, 7)] 1 5) k = Memory.read [(1, 5), (3, 7)] k :=
  ⟨by decide, by decide, fun _ => rfl⟩

/-- DMEM_WORDS that just takes the seed in, under each reading, and a word beside it. -/
theorem witness_ReferenceLaunchHoldsTheSeedState :
    0x800 < ({ Config.resetLaunch with dmemWords := 0x801 } : Launch).dmemWords ∧
    0x2000 < ({ Config.resetLaunch with dmemWords := 0x2001 } : Launch).dmemWords ∧
    0x801 ≠ SeedReading.byteAddress.index ∧ 0x1010 ∉ [0x1000, 0x1004, 0x1008, 0x100C] ∧
    (31 : RegIdx) ≠ 5 ∧ (31 : RegIdx) ≠ 9 ∧
    (State.launch (referenceLaunch .byteAddress .andOp { Config.resetLaunch with dmemWords := 0x801 })).dataWord 0x800
      = 10 := by decide

end Sys2Proof.Tests
end

section
/-! PROOFS. The invariant (00_scope.md R4, 10_state.md R17): what each operation of the model keeps of it, and from that
the reset state, every allowed launch and every step. -/

namespace Sys2Proof.Machine

/-! ### Even program counters (R17(c), R56) -/

/-- The sum of two even words is even, wrap included (R83, R110). -/
theorem even_add {a b : Word} (ha : a.getLsbD 0 = false) (hb : b.getLsbD 0 = false) :
    (a + b).getLsbD 0 = false := by
  rw [BitVec.getLsbD_add (by decide), ha, hb, BitVec.carry_zero]
  rfl

theorem even_sequentialPc {pc : Word} (h : pc.getLsbD 0 = false) : (sequentialPc pc).getLsbD 0 = false :=
  even_add h (by decide)

theorem even_branchTarget {pc : Word} {off : BitVec 13} (hpc : pc.getLsbD 0 = false)
    (hoff : off.getLsbD 0 = false) : (branchTarget pc off).getLsbD 0 = false := by
  have hsext : (sext off).getLsbD 0 = false := by
    rw [sext, BitVec.getLsbD_signExtend, hoff]
    rfl
  exact even_add hpc hsext

/-- The B-format field ends in the forced 0 (R56). -/
theorem even_immBField (w : Word) : (immBField w).getLsbD 0 = false := by
  rw [immBField, BitVec.getLsbD_append]
  rfl

theorem decodeRegReg_ne_beq (w : Word) (rs1 rs2 : RegIdx) (off : BitVec 13) :
    decodeRegReg w ≠ .beq rs1 rs2 off := by
  unfold decodeRegReg
  split_ifs <;> simp

/-- Every branch offset that decoding yields is even (R56). -/
theorem even_of_decode_eq_beq {w : Word} {rs1 rs2 : RegIdx} {off : BitVec 13} (h : decode w = .beq rs1 rs2 off) :
    off.getLsbD 0 = false := by
  rcases decode_cases w with ⟨-, e⟩ | ⟨-, e⟩ | ⟨-, e⟩ | ⟨-, e⟩ | ⟨-, e⟩ <;> rw [e] at h
  · cases h
  · cases h
  · exact absurd h (decodeRegReg_ne_beq w rs1 rs2 off)
  · cases h
    exact even_immBField w
  · cases h

/-! ### What each state update keeps of the invariant -/

theorem State.Inv.setPc {s : State} (h : s.Inv) {target : Word} (heven : target.getLsbD 0 = false) :
    (s.setPc target).Inv :=
  { h with pcEven := heven }

theorem State.Inv.advancePc {s : State} (h : s.Inv) : s.advancePc.Inv := h.setPc (even_sequentialPc h.pcEven)

theorem State.Inv.writeReg {s : State} (h : s.Inv) (r : RegIdx) (v : Word) : (s.writeReg r v).Inv := { h with }

theorem State.Inv.setDataWord {s : State} (h : s.Inv) {k : Nat} (hk : k < s.dmemWords) (v : Word) :
    (s.setDataWord k v).Inv :=
  { h with
    dataCanonical := Memory.wf_store s.dmem k v h.dataCanonical
    dataInRange := Memory.below_store s.dmem k s.dmemWords v hk h.dataInRange }

/-- The collaborators write in-range words only, and their inbox takes no part in the invariant (R134). -/
theorem State.Inv.hostTurn {s : State} (h : s.Inv) : s.hostTurn.Inv :=
  State.hostTurn_keeps State.Inv (fun _ _ v _ hk hu => hu.setDataWord hk v) (fun _ _ hu => { hu with }) s h

/-! ### What an instruction keeps -/

/-- An instruction that completes keeps the invariant if its branch offset, where it has one, is even. -/
theorem State.Inv.exec {i : Instr} {s t : State} (h : s.Inv) (he : exec i s = .next t)
    (heven : ∀ rs1 rs2 off, i = .beq rs1 rs2 off → off.getLsbD 0 = false) : t.Inv := by
  rcases exec_next_cases i s t he with ⟨rd, v, rfl⟩ | ⟨rs2, rs1, imm, -, hk, rfl⟩ | ⟨rs1, rs2, off, hi, rfl⟩ | rfl
  · exact (h.writeReg rd v).advancePc
  · exact (h.setDataWord hk (s.readReg rs2)).advancePc
  · exact h.setPc (even_branchTarget h.pcEven (heven rs1 rs2 off hi))
  · exact h.advancePc

/-- Every step that completes keeps the invariant. -/
theorem State.Inv.step {s t : State} (h : s.Inv) (hs : step s = .next t) : t.Inv := by
  rcases step_next_cases s t hs with ⟨-, -, rfl⟩ | ⟨w, -, he⟩
  · exact h
  · exact h.hostTurn.exec he fun _ _ _ => even_of_decode_eq_beq

/-! ### The memories a launch describes -/

theorem Memory.wf_ofDataPairs (n : Nat) (ps : List (Nat × Word)) : Memory.wf (Memory.ofDataPairs n ps) := by
  induction ps using List.reverseRecOn with
  | nil => exact Memory.wf_nil
  | append_singleton ps c ih =>
    rw [Memory.ofDataPairs_append_one]
    split
    · exact Memory.wf_store _ c.1 c.2 ih
    · exact ih

theorem Memory.below_ofDataPairs (n : Nat) (ps : List (Nat × Word)) : Memory.below (Memory.ofDataPairs n ps) n := by
  induction ps using List.reverseRecOn with
  | nil => exact List.forall_mem_nil _
  | append_singleton ps c ih =>
    rw [Memory.ofDataPairs_append_one]
    split
    · rename_i hc
      exact Memory.below_store _ c.1 n c.2 hc ih
    · exact ih

theorem Memory.wfCode_ofCodePairs (ps : List (Nat × Word)) : Memory.wfCode (Memory.ofCodePairs ps) := by
  induction ps using List.reverseRecOn with
  | nil => exact ⟨List.Pairwise.nil, List.forall_mem_nil _⟩
  | append_singleton ps c ih =>
    rw [Memory.ofCodePairs_append_one]
    split
    · rename_i hc
      exact Memory.wfCode_put _ c.1 c.2 hc ih
    · exact ih

/-- A launch within the bounds of R4 from an even reset vector meets the invariant. -/
theorem State.inv_launch (p : Launch) (hsize : dmemWordsAllowed p.dmemWords)
    (hvector : p.resetVector.getLsbD 0 = false) : (State.launch p).Inv where
  dataCanonical := Memory.wf_ofDataPairs p.dmemWords p.dmemInit
  dataInRange := Memory.below_ofDataPairs p.dmemWords p.dmemInit
  codeCanonical := Memory.wfCode_ofCodePairs p.program
  sizeAllowed := hsize
  pcEven := hvector

/-! ### The obligations -/

/-- Settles O56: the collaborators' turn keeps the invariant, and so does each way an instruction can complete; a
branch that is taken goes to an even pc because a decoded offset is even. -/
theorem invariantIsKeptByEveryStep : Obligations.InvariantIsKeptByEveryStep :=
  fun _ _ hs hstep => hs.step hstep

/-- Settles O55: both memories are built pair by pair, by operations that keep the canonical form. -/
theorem invariantHoldsAtLaunch : Obligations.InvariantHoldsAtLaunch :=
  fun p hsize hvector => State.inv_launch p hsize hvector

/-- Settles O54: the reset state is an allowed launch from an even vector. -/
theorem invariantHoldsAtReset : Obligations.InvariantHoldsAtReset :=
  State.inv_launch Config.resetLaunch (by decide) (by decide)

end Sys2Proof.Machine
end

section
/-! PROOFS. The state (10_state.md): what a launch puts into registers and memories (R23, R140 to R142), that register 0
is ordinary (R12), and that a result comes from the old values of its sources (R14). -/

namespace Sys2Proof.Machine

/-! ### What a launch loads (R23, R140) -/

@[simp] theorem State.launch_readReg (p : Launch) (r : RegIdx) : (State.launch p).readReg r = p.regInit[r.val] := rfl

/-- The last word a loader's listing gives a key, the way the launch obligation words it (R23). -/
def lastListed (ps : List (Nat × Word)) (k : Nat) : Option Word :=
  (ps.reverse.find? fun c => c.1 == k).map Prod.snd

theorem lastListed_append_one (ps : List (Nat × Word)) (c : Nat × Word) (k : Nat) :
    lastListed (ps ++ [c]) k = if c.1 = k then some c.2 else lastListed ps k := by
  by_cases h : c.1 = k <;> simp [lastListed, h]

/-- Storing DMEM_INIT pair by pair leaves each valid index at its last listed word. -/
theorem Memory.read_ofDataPairs {n k : Nat} (hk : k < n) (ps : List (Nat × Word)) :
    Memory.read (Memory.ofDataPairs n ps) k = (lastListed ps k).getD unlistedWord := by
  induction ps using List.reverseRecOn with
  | nil => rfl
  | append_singleton ps c ih =>
    rw [Memory.ofDataPairs_append_one, lastListed_append_one]
    by_cases hc : c.1 = k
    · subst hc
      rw [if_pos hk, if_pos rfl, Memory.read_store_same, Option.getD_some]
    · rw [if_neg hc, ← ih]
      split
      · exact Memory.read_store_other _ c.1 k c.2 (Ne.symm hc)
      · rfl

/-- Listing a program pair by pair leaves each code address at its last listed word. -/
theorem Memory.wordAt?_ofCodePairs {a : Nat} (ha : isCodeAddress a) (ps : List (Nat × Word)) :
    Memory.wordAt? (Memory.ofCodePairs ps) a = lastListed ps a := by
  induction ps using List.reverseRecOn with
  | nil => rfl
  | append_singleton ps c ih =>
    rw [Memory.ofCodePairs_append_one, lastListed_append_one]
    by_cases hc : c.1 = a
    · subst hc
      rw [if_pos ha, if_pos rfl, Memory.wordAt?_put_same]
    · rw [if_neg hc, ← ih]
      split
      · exact Memory.wordAt?_put_other _ c.1 a c.2 (Ne.symm hc)
      · rfl

theorem Memory.wordAt?_eq_none (m : Memory) (k : Nat) (h : ∀ c ∈ m, c.1 ≠ k) : Memory.wordAt? m k = none := by
  induction m with
  | nil => rfl
  | cons c m ih =>
    obtain ⟨hc, hm⟩ := List.forall_mem_cons.1 h
    rw [Memory.wordAt?, if_neg (Ne.symm hc), ih hm]

/-- A canonical instruction memory holds nothing away from the code addresses (R36). -/
theorem Memory.wordAt?_of_not_code {m : Memory} (hm : Memory.wfCode m) {a : Nat} (ha : ¬ isCodeAddress a) :
    Memory.wordAt? m a = none := by
  obtain ⟨-, hkeys⟩ := hm
  exact Memory.wordAt?_eq_none m a fun c hc e => ha (e ▸ hkeys c hc)

/-! ### The reference registers (R142) -/

theorem withReferenceRegs_five (rest : Vector Word 32) : (Config.withReferenceRegs rest)[5] = 6 := by
  simp [Config.withReferenceRegs]

theorem withReferenceRegs_nine (rest : Vector Word 32) : (Config.withReferenceRegs rest)[9] = 0x2004 := by
  simp [Config.withReferenceRegs]

theorem withReferenceRegs_other (rest : Vector Word 32) (r : RegIdx) (h5 : r ≠ 5) (h9 : r ≠ 9) :
    (Config.withReferenceRegs rest)[r.val] = rest[r.val] := by
  have h5' : 5 ≠ r.val := fun e => h5 (Fin.ext e.symm)
  have h9' : 9 ≠ r.val := fun e => h9 (Fin.ext e.symm)
  simp [Config.withReferenceRegs, h5', h9']

/-! ### What a destination register holds (R13, R14) -/

/-- A load in range leaves the addressed word in rd, whatever rd is; the address comes from the old base (R90). -/
theorem exec_lw_readReg_rd (rd rs1 : RegIdx) (imm : BitVec 12) (s : State)
    (h : wordIndex (effectiveAddr (s.readReg rs1) imm) < s.dmemWords) :
    ∃ t, exec (.lw rd rs1 imm) s = .next t ∧
      t.readReg rd = s.dataWord (wordIndex (effectiveAddr (s.readReg rs1) imm)) :=
  ⟨_, execLw_inRange rd rs1 imm s h, by simp⟩

/-- Each register-register instruction is the shared operation with its own ALU code (R100 to R105). -/
theorem exec_eq_regReg {rd rs1 rs2 : RegIdx} {i : Instr} {code : AluCode}
    (h : (i, code) ∈ regRegForms rd rs1 rs2) (s : State) : exec i s = regReg code rd rs1 rs2 s := by
  have hforms : ∀ f ∈ regRegForms rd rs1 rs2, exec f.1 s = regReg f.2 rd rs1 rs2 s := by
    simp only [regRegForms, List.forall_mem_cons]
    exact ⟨rfl, rfl, rfl, rfl, rfl, rfl, rfl, rfl, rfl, List.forall_mem_nil _⟩
  exact hforms _ h

/-- A register-register instruction leaves the ALU result of the old operands in rd, whatever rd is (R14). -/
theorem exec_regReg_readReg_rd {rd rs1 rs2 : RegIdx} {i : Instr} {code : AluCode}
    (h : (i, code) ∈ regRegForms rd rs1 rs2) (s : State) :
    ∃ t, exec i s = .next t ∧ t.readReg rd = alu (s.readReg rs1) (s.readReg rs2) code :=
  ⟨_, exec_eq_regReg h s, by simp⟩

/-! ### The first step from reset -/

/-- The reset state has no instruction at its pc, so its first fetch is out of range (R121; logs 3 and 6). -/
theorem step_reset : step State.reset = .fault (.fetchOutOfRange 0x00001000) := by
  have hfetch : State.reset.fetchWord State.reset.pc = .error (.fetchOutOfRange 0x00001000) := rfl
  rw [step_of_running State.reset rfl, hfetch, attempt_error]

/-! ### The obligations -/

/-- Settles O51: memories are loaded pair by pair, so the last listing of a key is the one that stays, and no pair away
from a code address is loaded. -/
theorem launchHoldsItsParameters : Obligations.LaunchHoldsItsParameters :=
  fun p => ⟨rfl, State.launch_readReg p, fun _ hk => Memory.read_ofDataPairs hk p.dmemInit,
    fun _ ha => Memory.wordAt?_ofCodePairs ha p.program,
    fun _ ha => Memory.wordAt?_of_not_code (Memory.wfCode_ofCodePairs p.program) ha, rfl⟩

/-- Settles O30: loading, writing and reading a register make no exception of register 0. -/
theorem registerZeroIsOrdinary : Obligations.RegisterZeroIsOrdinary :=
  ⟨fun p => State.launch_readReg p 0, fun s v => State.readReg_writeReg_same s 0 v, exec_lw_readReg_rd 0,
    fun _ _ s _ _ hform => exec_regReg_readReg_rd hform s⟩

/-- Settles O31: the result is computed from the old registers for every rd, so an overlap with a source needs no case
of its own. -/
theorem sourcesAreReadBeforeTheDestinationIsWritten : Obligations.SourcesAreReadBeforeTheDestinationIsWritten :=
  ⟨fun r => exec_lw_readReg_rd r r, fun _ _ _ s _ _ _ hform => exec_regReg_readReg_rd hform s⟩

/-- Settles O53: the reset state is the launch of the reference registers over zeros, with both memories empty. -/
theorem resetStateValues : Obligations.ResetStateValues := by
  refine ⟨rfl, withReferenceRegs_five _, withReferenceRegs_nine _, fun r h5 h9 => ?_, Memory.read_nil, rfl, rfl, rfl,
    step_reset⟩
  calc State.reset.readReg r
    _ = (Vector.replicate 32 (0 : Word))[r.val] := withReferenceRegs_other _ r h5 h9
    _ = 0 := Vector.getElem_replicate r.isLt

end Sys2Proof.Machine
end

section
/-! PROOFS. The memories (20_memory.md): the canonical form determines a data memory (R33), which words a data access, a
collaborator and a cycle touch (R31, R39, R84), that nothing writes instruction memory (R37), and that a step runs the
word it fetches (R36). -/

namespace Sys2Proof.Machine

/-! ### The canonical form of a data memory (R33) -/

theorem Memory.read_cons (c : Nat × Word) (m : Memory) (k : Nat) :
    Memory.read (c :: m) k = if k = c.1 then c.2 else Memory.read m k := by
  rw [Memory.read, Memory.wordAt?]
  split <;> rfl

theorem Memory.read_of_lt {m : Memory} {k : Nat} (h : ∀ c ∈ m, k < c.1) : Memory.read m k = unlistedWord := by
  rw [Memory.read, Memory.wordAt?_of_lt m k h, Option.getD_none]

theorem Memory.wf_cons {c : Nat × Word} {m : Memory} :
    Memory.wf (c :: m) ↔ (∀ d ∈ m, c.1 < d.1) ∧ c.2 ≠ unlistedWord ∧ Memory.wf m := by
  rw [Memory.wf, Memory.rising, List.pairwise_cons, List.forall_mem_cons]
  exact ⟨fun ⟨⟨hlt, hm⟩, hc, hl⟩ => ⟨hlt, hc, hm, hl⟩, fun ⟨hlt, hc, hm, hl⟩ => ⟨⟨hlt, hm⟩, hc, hl⟩⟩

/-- The first listed word is seen by a read, so a memory that reads alike does not begin above it. -/
theorem Memory.not_all_above_of_read_eq {c : Nat × Word} {m m' : Memory} (hc : c.2 ≠ unlistedWord)
    (hread : ∀ k, Memory.read (c :: m) k = Memory.read m' k) : ¬ ∀ d ∈ m', c.1 < d.1 := by
  intro hlt
  have hhead : c.2 = unlistedWord :=
    calc c.2
      _ = Memory.read (c :: m) c.1 := by rw [Memory.read_cons, if_pos rfl]
      _ = Memory.read m' c.1 := hread c.1
      _ = unlistedWord := Memory.read_of_lt hlt
  exact hc hhead

/-- The words after the first are not hidden by it: below and at its key both tails are unlisted. -/
theorem Memory.read_tails_eq {c : Nat × Word} {m m' : Memory} (hm : ∀ d ∈ m, c.1 < d.1) (hm' : ∀ d ∈ m', c.1 < d.1)
    (hread : ∀ k, Memory.read (c :: m) k = Memory.read (c :: m') k) (k : Nat) : Memory.read m k = Memory.read m' k := by
  by_cases hk : k = c.1
  · rw [hk, Memory.read_of_lt hm, Memory.read_of_lt hm']
  · simpa only [Memory.read_cons, if_neg hk] using hread k

theorem Memory.eq_of_read_eq {m m' : Memory} (hm : Memory.wf m) (hm' : Memory.wf m')
    (hread : ∀ k, Memory.read m k = Memory.read m' k) : m = m' := by
  induction m generalizing m' with
  | nil =>
    cases m' with
    | nil => rfl
    | cons d m' =>
      obtain ⟨-, hd, -⟩ := Memory.wf_cons.1 hm'
      exact absurd (List.forall_mem_nil _) (Memory.not_all_above_of_read_eq hd fun k => (hread k).symm)
  | cons c m ih =>
    obtain ⟨hcm, hc, hwf⟩ := Memory.wf_cons.1 hm
    cases m' with
    | nil => exact absurd (List.forall_mem_nil _) (Memory.not_all_above_of_read_eq hc hread)
    | cons d m' =>
      obtain ⟨hdm, hd, hwf'⟩ := Memory.wf_cons.1 hm'
      have hcd : ¬ c.1 < d.1 := fun hlt => Memory.not_all_above_of_read_eq hc hread
        (List.forall_mem_cons.2 ⟨hlt, fun e he => hlt.trans (hdm e he)⟩)
      have hdc : ¬ d.1 < c.1 := fun hlt => Memory.not_all_above_of_read_eq hd (fun k => (hread k).symm)
        (List.forall_mem_cons.2 ⟨hlt, fun e he => hlt.trans (hcm e he)⟩)
      have hkey : c.1 = d.1 := by omega
      have hvalue : c.2 = d.2 := by simpa only [Memory.read_cons, hkey, if_true] using hread c.1
      obtain rfl : c = d := Prod.ext hkey hvalue
      rw [ih hwf hwf' (Memory.read_tails_eq hcm hdm hread)]

/-! ### Which data words the collaborators write (R39, R135) -/

theorem State.hostWrite_inRegion (s : State) (h : HostWrite) (hregion : regionHas s.hostWriteRegion h.index = true)
    (hrange : h.index < s.dmemWords) : s.hostWrite h = s.setDataWord h.index h.value := by
  rw [State.hostWrite, if_pos (by simp [hregion, hrange])]

theorem State.dataWord_hostWrite_other (s : State) (h : HostWrite) (k : Nat) (hk : h.index ≠ k) :
    (s.hostWrite h).dataWord k = s.dataWord k := by
  rcases s.hostWrite_cases h with e | ⟨-, -, e⟩ <;> rw [e]
  exact State.dataWord_setDataWord_other s h.index k h.value hk.symm

theorem State.dataWord_foldl_hostWrite_other (due : List HostWrite) (s : State) (k : Nat)
    (hk : ∀ h ∈ due, h.index ≠ k) : (due.foldl State.hostWrite s).dataWord k = s.dataWord k := by
  induction due generalizing s with
  | nil => rfl
  | cons g due ih =>
    obtain ⟨hg, hdue⟩ := List.forall_mem_cons.1 hk
    rw [List.foldl_cons, ih _ hdue, State.dataWord_hostWrite_other s g k hg]

@[simp] theorem State.foldl_hostWrite_dmemWords (due : List HostWrite) (s : State) :
    (due.foldl State.hostWrite s).dmemWords = s.dmemWords := by rw [State.foldl_hostWrite_eq]

@[simp] theorem State.foldl_hostWrite_hostWriteRegion (due : List HostWrite) (s : State) :
    (due.foldl State.hostWrite s).hostWriteRegion = s.hostWriteRegion := by rw [State.foldl_hostWrite_eq]

@[simp] theorem State.foldl_hostWrite_hostInbox (due : List HostWrite) (s : State) :
    (due.foldl State.hostWrite s).hostInbox = s.hostInbox := by rw [State.foldl_hostWrite_eq]

/-- A write into the region stands until a later write of the same word (D10). -/
theorem State.dataWord_foldl_hostWrite_last (s : State) (before after : List HostWrite) (k : Nat) (v : Word)
    (hregion : regionHas s.hostWriteRegion k = true) (hrange : k < s.dmemWords) (hafter : ∀ h ∈ after, h.index ≠ k) :
    ((before ++ ⟨k, v⟩ :: after).foldl State.hostWrite s).dataWord k = v := by
  rw [List.foldl_append, List.foldl_cons, State.dataWord_foldl_hostWrite_other after _ k hafter,
    State.hostWrite_inRegion _ _ (by simpa using hregion) (by simpa using hrange), State.dataWord_setDataWord_same]

theorem State.hostTurn_of_moves (s : State) (due : List HostWrite) (later : List (List HostWrite))
    (h : s.hostInbox = due :: later) : s.hostTurn = due.foldl State.hostWrite { s with hostInbox := later } := by
  rw [State.hostTurn, h]

theorem State.dataWord_hostTurn_other (s : State) (k : Nat) (hk : ¬ s.hostWritesTo k) :
    s.hostTurn.dataWord k = s.dataWord k := by
  cases hinbox : s.hostInbox with
  | nil => rw [State.hostTurn_of_no_moves s hinbox]
  | cons due later =>
    rw [State.hostTurn_of_moves s due later hinbox]
    exact State.dataWord_foldl_hostWrite_other due _ k fun h hmem e => hk ⟨due, later, h, hinbox, hmem, e⟩

/-! ### What an instruction leaves unchanged (R84) -/

/-- An instruction that completes changes no data word but the one a store addresses. -/
theorem exec_dataWord_other {i : Instr} {s t : State} (he : exec i s = .next t) (k : Nat)
    (hk : ∀ rs2 rs1 imm, i = .sw rs2 rs1 imm → wordIndex (effectiveAddr (s.readReg rs1) imm) ≠ k) :
    t.dataWord k = s.dataWord k := by
  rcases exec_next_cases i s t he with ⟨rd, v, rfl⟩ | ⟨rs2, rs1, imm, hi, -, rfl⟩ | ⟨rs1, rs2, off, -, rfl⟩ | rfl
  · rfl
  · exact State.dataWord_setDataWord_other s _ k _ (hk rs2 rs1 imm hi).symm
  · rfl
  · rfl

theorem State.sameEnvironment_setDataWord (s : State) (k : Nat) (v : Word) : SameEnvironment s (s.setDataWord k v) :=
  ⟨rfl, rfl, rfl, rfl, rfl, rfl⟩

/-- No instruction writes instruction memory, a parameter, the collaborators' inbox or the halted mark. -/
theorem exec_sameEnvironment {i : Instr} {s t : State} (he : exec i s = .next t) : SameEnvironment s t := by
  rcases exec_next_cases i s t he with ⟨rd, v, rfl⟩ | ⟨rs2, rs1, imm, -, -, rfl⟩ | ⟨rs1, rs2, off, -, rfl⟩ | rfl
  all_goals exact ⟨rfl, rfl, rfl, rfl, rfl, rfl⟩

/-! ### What no run changes (R37, R4) -/

/-- Instruction memory and the launch parameters, which a run only reads. -/
structure SameFixedParts (s t : State) : Prop where
  imem            : t.imem = s.imem
  dmemWords       : t.dmemWords = s.dmemWords
  hostReadRegion  : t.hostReadRegion = s.hostReadRegion
  hostWriteRegion : t.hostWriteRegion = s.hostWriteRegion

theorem SameFixedParts.refl (s : State) : SameFixedParts s s := ⟨rfl, rfl, rfl, rfl⟩

theorem SameFixedParts.trans {s t u : State} (h : SameFixedParts s t) (h' : SameFixedParts t u) : SameFixedParts s u :=
  ⟨h'.imem.trans h.imem, h'.dmemWords.trans h.dmemWords, h'.hostReadRegion.trans h.hostReadRegion,
    h'.hostWriteRegion.trans h.hostWriteRegion⟩

theorem SameEnvironment.sameFixedParts {s t : State} (h : SameEnvironment s t) : SameFixedParts s t := { h with }

theorem State.sameFixedParts_hostTurn (s : State) : SameFixedParts s s.hostTurn := ⟨by simp, by simp, by simp, by simp⟩

theorem step_sameFixedParts {s t : State} (hs : step s = .next t) : SameFixedParts s t := by
  rcases step_next_cases s t hs with ⟨-, -, rfl⟩ | ⟨w, -, he⟩
  · exact SameFixedParts.refl t
  · exact s.sameFixedParts_hostTurn.trans (exec_sameEnvironment he).sameFixedParts

theorem cycle_sameFixedParts (s : State) : SameFixedParts s (cycle s) := by
  cases h : step s with
  | next t => exact cycle_of_next s t h ▸ step_sameFixedParts h
  | fault r => exact cycle_of_fault s r h ▸ { s.sameFixedParts_hostTurn with }
  | refused r =>
    have hcycle : cycle s = s := by rw [cycle, h]
    exact hcycle.symm ▸ SameFixedParts.refl s

theorem cycles_sameFixedParts (n : Nat) (s : State) : SameFixedParts s (cycles n s) :=
  cycles_keep (SameFixedParts s) (fun u hu => hu.trans (cycle_sameFixedParts u)) n s (SameFixedParts.refl s)

/-! ### The obligations -/

/-- Settles O32: the word index is the quotient of the byte address by 4, and both accesses branch on that index
alone. -/
theorem dataAccessUsesTheWordOfItsAddress : Obligations.DataAccessUsesTheWordOfItsAddress := by
  refine ⟨wordIndex_eq_div, fun s a v => ?_⟩
  rw [← wordIndex_eq_div a]
  constructor
  · intro hrange
    exact ⟨s.memRead_inRange a hrange, _, s.memWrite_inRange a v hrange, s.dataWord_setDataWord_same _ v,
      fun j hj => s.dataWord_setDataWord_other _ j v hj, rfl, rfl, s.sameEnvironment_setDataWord _ v⟩
  · intro hrange
    exact ⟨s.memRead_outOfRange a hrange, s.memWrite_outOfRange a v hrange⟩

/-- Settles O33: the collaborators' turn and the instruction each leave a word they do not address, and a halted core's
step leaves everything. -/
theorem onlyAStoreOrTheHostChangesADataWord : Obligations.OnlyAStoreOrTheHostChangesADataWord := by
  intro s t k hs hstore hhost
  rcases step_next_cases s t hs with ⟨-, -, rfl⟩ | ⟨w, hw, he⟩
  · rfl
  · calc t.dataWord k
      _ = s.hostTurn.dataWord k :=
        exec_dataWord_other he k fun rs2 rs1 imm hi hk => hstore ⟨rs2, rs1, imm, ⟨w, hw, hi⟩, hk⟩
      _ = s.dataWord k := s.dataWord_hostTurn_other k hhost

/-- Settles O35: every cycle keeps the fixed parts, completing or not, and a fetch reads nothing else. -/
theorem instructionMemoryIsNeverWritten : Obligations.InstructionMemoryIsNeverWritten := by
  intro n s
  obtain ⟨himem, hwords, hread, hwrite⟩ := cycles_sameFixedParts n s
  exact ⟨himem, fun a => State.fetchWord_of_imem s _ a himem, hwords, hread, hwrite⟩

/-- Settles O49: the writes due land in list order, and none after the last write of word `k` addresses it. -/
theorem lastHostWriteOfATurnStands : Obligations.LastHostWriteOfATurnStands := by
  intro s before after k v later hregion hrange hafter hinbox
  rw [s.hostTurn_of_moves _ later hinbox]
  exact ⟨State.dataWord_foldl_hostWrite_last _ before after k v hregion hrange hafter,
    State.foldl_hostWrite_hostInbox _ _⟩

/-- Settles O57: by induction on the listing; the smaller of two first keys would be seen by a read of one memory
only. -/
theorem canonicalMemoriesThatReadAlikeAreEqual : Obligations.CanonicalMemoriesThatReadAlikeAreEqual :=
  fun _ _ hm hm' hread => Memory.eq_of_read_eq hm hm' hread

/-- Settles O36: an aligned, populated pc is what the fetch needs. -/
theorem stepRunsTheDecodedInstruction : Obligations.StepRunsTheDecodedInstruction :=
  fun s w hrun halign hword => step_of_fetches s w ⟨hrun, (State.fetchWord_ok _ _ w).2 ⟨halign, hword⟩⟩

/-- Settles O37: with an empty inbox the collaborators' turn is the identity, so O36 speaks of the state itself. -/
theorem stepWithoutHostMovesRunsTheDecodedInstruction :
    Obligations.StepWithoutHostMovesRunsTheDecodedInstruction := by
  intro s w hrun hinbox halign hword
  have hturn : s.hostTurn = s := s.hostTurn_of_no_moves hinbox
  have hstep := stepRunsTheDecodedInstruction s w hrun
  rw [hturn] at hstep
  exact hstep halign hword

end Sys2Proof.Machine
end

section
/-! PROOFS. The encoding (30_encoding.md): the register-register table by funct3 (R61), which fields a mask keeps (R51),
the rows of the opcode table (R63, R115), immediates as signed fields (R53 to R57), and that no step is refused
(R62). -/

namespace Sys2Proof

/-! ### The register-register table (R61) -/

/-- The register-register instruction of a funct3, and of `instr[30]` for the add/subtract pair (R61). -/
def regRegInstr (funct3 : BitVec 3) (bit30 : Bool) (rd rs1 rs2 : RegIdx) : Instr :=
  match funct3 with
  | 0b000 => if bit30 then .sub rd rs1 rs2 else .add rd rs1 rs2
  | 0b001 => .rdef001 rd rs1 rs2
  | 0b010 => .slt rd rs1 rs2
  | 0b011 => .rdef011 rd rs1 rs2
  | 0b100 => .rdef100 rd rs1 rs2
  | 0b101 => .rdef101 rd rs1 rs2
  | 0b110 => .or rd rs1 rs2
  | _ => .and rd rs1 rs2

theorem funct3_cases (f3 : BitVec 3) :
    f3 = 0b000 ∨ f3 = 0b001 ∨ f3 = 0b010 ∨ f3 = 0b011 ∨ f3 = 0b100 ∨ f3 = 0b101 ∨ f3 = 0b110 ∨ f3 = 0b111 := by
  revert f3
  decide

theorem decodeRegReg_eq_regRegInstr (w : Word) :
    decodeRegReg w = regRegInstr (funct3Of w) (w.getLsbD 30 && w.getLsbD 5) (rdOf w) (rs1Of w) (rs2Of w) := by
  unfold decodeRegReg
  rcases funct3_cases (funct3Of w) with h | h | h | h | h | h | h | h <;> rw [h] <;> rfl

theorem getLsbD_bits (w : Word) (hi lo i : Nat) :
    (bits w hi lo).getLsbD i = (decide (i < hi - lo + 1) && w.getLsbD (lo + i)) :=
  BitVec.getLsbD_extractLsb

/-- The register-register opcode has `instr[5]` set, so `instr[30]` alone tells SUB from ADD (R61, R73). -/
theorem decode_eq_regRegInstr {w : Word} (h : opcodeOf w = Config.opcR) :
    decode w = regRegInstr (funct3Of w) (w.getLsbD 30) (rdOf w) (rs1Of w) (rs2Of w) := by
  have hbit5 : w.getLsbD 5 = true :=
    calc w.getLsbD 5
      _ = (opcodeOf w).getLsbD 5 := (getLsbD_bits w 6 0 5).symm
      _ = true := by rw [h]; rfl
  rw [decode_of_opcR w h, decodeRegReg_eq_regRegInstr, hbit5, Bool.and_true]

theorem encodeRegReg_bit30 (f7 : BitVec 7) (f3 : BitVec 3) (rd rs1 rs2 : RegIdx) :
    (encodeRegReg f7 f3 rd rs1 rs2).getLsbD 30 = f7.getLsbD 5 := by
  obtain ⟨-, -, -, -, -, hf7⟩ := encodeRegReg_fields f7 f3 rd rs1 rs2
  rw [← congrArg (BitVec.getLsbD · 5) hf7]
  exact (getLsbD_bits _ 31 25 5).symm

/-- A register-register word is decoded by its funct3 and by bit 5 of its funct7 (R61). -/
theorem decode_encodeRegReg (f7 : BitVec 7) (f3 : BitVec 3) (rd rs1 rs2 : RegIdx) :
    decode (encodeRegReg f7 f3 rd rs1 rs2) = regRegInstr f3 (f7.getLsbD 5) rd rs1 rs2 := by
  obtain ⟨hopc, hrd, hrs1, hrs2, hf3, -⟩ := encodeRegReg_fields f7 f3 rd rs1 rs2
  rw [decode_eq_regRegInstr hopc, hf3, encodeRegReg_bit30, hrd, hrs1, hrs2]

/-- Only the add/subtract pair reads `instr[30]` (R61). -/
theorem regRegInstr_congr {f3 : BitVec 3} {b b' : Bool} (h : f3 = Config.f3AddSub → b' = b) (rd rs1 rs2 : RegIdx) :
    regRegInstr f3 b' rd rs1 rs2 = regRegInstr f3 b rd rs1 rs2 := by
  rcases funct3_cases f3 with rfl | rfl | rfl | rfl | rfl | rfl | rfl | rfl
  case inl => rw [h rfl]
  all_goals rfl

/-- The canonical word of a register-register instruction has its funct3, and the `instr[30]` that tells SUB from ADD
(R64). -/
theorem encode_regRegInstr (f3 : BitVec 3) (b : Bool) (rd rs1 rs2 : RegIdx) :
    ∃ f7, encode (regRegInstr f3 b rd rs1 rs2) = encodeRegReg f7 f3 rd rs1 rs2 ∧
      (f3 = Config.f3AddSub → f7.getLsbD 5 = b) := by
  rcases funct3_cases f3 with rfl | rfl | rfl | rfl | rfl | rfl | rfl | rfl
  case inl =>
    cases b
    · exact ⟨Config.f7Canon, rfl, fun _ => rfl⟩
    · exact ⟨Config.f7Sub, rfl, fun _ => rfl⟩
  all_goals exact ⟨Config.f7Canon, rfl, fun h => absurd h (by decide)⟩

/-- The mask of a register-register row: `instr[30]` is in it for the add/subtract pair only (R61). -/
theorem regRegInstr_decodedBits (f3 : BitVec 3) (b : Bool) (rd rs1 rs2 : RegIdx) :
    (regRegInstr f3 b rd rs1 rs2).decodedBits = if f3 = Config.f3AddSub then 0x41FFFFFF else 0x01FFFFFF := by
  fun_cases regRegInstr f3 b rd rs1 rs2
  case case9 hne _ _ _ _ _ _ => exact (if_neg hne).symm
  all_goals rfl

theorem regRegInstr_wf (f3 : BitVec 3) (b : Bool) (rd rs1 rs2 : RegIdx) : (regRegInstr f3 b rd rs1 rs2).wf = true := by
  fun_cases regRegInstr f3 b rd rs1 rs2 <;> rfl

theorem unknown_wf_iff (w : Word) : (Instr.unknown w).wf = true ↔ opcodeOf w ∉ recognisedOpcodes := by
  simp [Instr.wf, opcodeOf, bits, BitVec.extractLsb]

/-! ### Words that agree under a mask (R51) -/

theorem bits_and (w m : Word) (hi lo : Nat) : bits (w &&& m) hi lo = bits w hi lo &&& bits m hi lo :=
  BitVec.extractLsb_and

theorem getLsbD_eq_of_bits_eq {w' w : Word} {hi lo i : Nat} (h : bits w' hi lo = bits w hi lo) (hlo : lo ≤ i)
    (hhi : i ≤ hi) : w'.getLsbD i = w.getLsbD i := by
  have hread : ∀ v : Word, (bits v hi lo).getLsbD (i - lo) = v.getLsbD i := fun v => by
    rw [getLsbD_bits, Nat.add_sub_cancel' hlo, decide_eq_true (by omega), Bool.true_and]
  rw [← hread w', h, hread]

/-- The mask `m` sets every bit of each (high, low) field listed, and no bit outside them. -/
abbrev MaskHasFields (m : Word) (fields : List (Nat × Nat)) : Prop :=
  (∀ f ∈ fields, bits m f.1 f.2 = BitVec.allOnes (f.1 - f.2 + 1)) ∧
    ∀ i < 32, m.getLsbD i = true → ∃ f ∈ fields, f.2 ≤ i ∧ i ≤ f.1

/-- Two words agree under a mask exactly when they agree on each of its fields. -/
theorem and_eq_and_iff_bits_eq {m : Word} {fields : List (Nat × Nat)} (hm : MaskHasFields m fields) (w' w : Word) :
    w' &&& m = w &&& m ↔ ∀ f ∈ fields, bits w' f.1 f.2 = bits w f.1 f.2 := by
  obtain ⟨hones, hcover⟩ := hm
  constructor
  · intro h f hf
    have hread : ∀ v, bits (v &&& m) f.1 f.2 = bits v f.1 f.2 := fun v => by
      rw [bits_and, hones f hf, BitVec.and_allOnes]
    rw [← hread w', h, hread]
  · intro h
    refine BitVec.eq_of_getLsbD_eq fun i hi => ?_
    rw [BitVec.getLsbD_and, BitVec.getLsbD_and]
    cases hmi : m.getLsbD i with
    | false => rw [Bool.and_false, Bool.and_false]
    | true =>
      obtain ⟨f, hf, hlo, hhi⟩ := hcover i hi hmi
      rw [getLsbD_eq_of_bits_eq (h f hf) hlo hhi]

theorem append_eq_append_iff {m n : Nat} {x x' : BitVec m} {y y' : BitVec n} :
    x' ++ y' = x ++ y ↔ x' = x ∧ y' = y := by
  constructor
  · intro h
    have hhigh := congrArg (BitVec.extractLsb' n m) h
    have hlow := congrArg (BitVec.extractLsb' 0 n) h
    simp only [BitVec.extractLsb'_append_eq_left, BitVec.extractLsb'_append_eq_right] at hhigh hlow
    exact ⟨hhigh, hlow⟩
  · rintro ⟨rfl, rfl⟩
    rfl

theorem bits_one_eq_iff (w' w : Word) (i : Nat) : bits w' i i = bits w i i ↔ w'.getLsbD i = w.getLsbD i := by
  constructor
  · exact fun h => getLsbD_eq_of_bits_eq h le_rfl le_rfl
  · intro h
    refine BitVec.eq_of_getLsbD_eq fun j hj => ?_
    obtain rfl : j = 0 := by omega
    simp only [getLsbD_bits, Nat.add_zero, h]

theorem rdOf_eq_iff (w' w : Word) : rdOf w' = rdOf w ↔ bits w' 11 7 = bits w 11 7 := BitVec.toFin_inj

theorem rs1Of_eq_iff (w' w : Word) : rs1Of w' = rs1Of w ↔ bits w' 19 15 = bits w 19 15 := BitVec.toFin_inj

theorem rs2Of_eq_iff (w' w : Word) : rs2Of w' = rs2Of w ↔ bits w' 24 20 = bits w 24 20 := BitVec.toFin_inj

theorem immSField_eq_iff (w' w : Word) :
    immSField w' = immSField w ↔ bits w' 31 25 = bits w 31 25 ∧ bits w' 11 7 = bits w 11 7 :=
  append_eq_append_iff

theorem immBField_eq_iff (w' w : Word) :
    immBField w' = immBField w ↔
      bits w' 31 31 = bits w 31 31 ∧ bits w' 7 7 = bits w 7 7 ∧ bits w' 30 25 = bits w 30 25 ∧
      bits w' 11 8 = bits w 11 8 := by
  unfold immBField
  rw [append_eq_append_iff, append_eq_append_iff, append_eq_append_iff, append_eq_append_iff]
  simp only [and_assoc, and_true]

/-! The words of each format agree on the bits decoding reads exactly when they agree on the format's fields (R58). -/

theorem and_formatI_iff (w' w : Word) :
    w' &&& 0xFFFF8FFF = w &&& 0xFFFF8FFF ↔
      opcodeOf w' = opcodeOf w ∧ rdOf w' = rdOf w ∧ rs1Of w' = rs1Of w ∧ immIField w' = immIField w := by
  rw [and_eq_and_iff_bits_eq (fields := [(6, 0), (11, 7), (19, 15), (31, 20)]) (by decide)]
  simp [opcodeOf, rdOf_eq_iff, rs1Of_eq_iff, immIField]

theorem and_formatS_iff (w' w : Word) :
    w' &&& 0xFFFF8FFF = w &&& 0xFFFF8FFF ↔
      opcodeOf w' = opcodeOf w ∧ rs2Of w' = rs2Of w ∧ rs1Of w' = rs1Of w ∧ immSField w' = immSField w := by
  rw [and_eq_and_iff_bits_eq (fields := [(6, 0), (24, 20), (19, 15), (31, 25), (11, 7)]) (by decide)]
  simp [opcodeOf, rs2Of_eq_iff, rs1Of_eq_iff, immSField_eq_iff]

theorem and_formatB_iff (w' w : Word) :
    w' &&& 0xFFFF8FFF = w &&& 0xFFFF8FFF ↔
      opcodeOf w' = opcodeOf w ∧ rs1Of w' = rs1Of w ∧ rs2Of w' = rs2Of w ∧ immBField w' = immBField w := by
  rw [and_eq_and_iff_bits_eq (fields := [(6, 0), (19, 15), (24, 20), (31, 31), (7, 7), (30, 25), (11, 8)]) (by decide)]
  simp [opcodeOf, rs2Of_eq_iff, rs1Of_eq_iff, immBField_eq_iff]

/-- The bits a register-register word is decoded by are its opcode, registers and funct3, and `instr[30]` for the
add/subtract pair (R61). -/
theorem and_regReg_iff {w' w : Word} {f3 : BitVec 3} {b : Bool} {rd rs1 rs2 : RegIdx} :
    w' &&& (regRegInstr f3 b rd rs1 rs2).decodedBits = w &&& (regRegInstr f3 b rd rs1 rs2).decodedBits ↔
      opcodeOf w' = opcodeOf w ∧ rdOf w' = rdOf w ∧ rs1Of w' = rs1Of w ∧ rs2Of w' = rs2Of w ∧
      funct3Of w' = funct3Of w ∧ (f3 = Config.f3AddSub → w'.getLsbD 30 = w.getLsbD 30) := by
  rw [regRegInstr_decodedBits]
  split
  case isTrue h =>
    rw [and_eq_and_iff_bits_eq (fields := [(6, 0), (11, 7), (19, 15), (24, 20), (14, 12), (30, 30)]) (by decide)]
    simp [opcodeOf, rdOf_eq_iff, rs1Of_eq_iff, rs2Of_eq_iff, funct3Of, bits_one_eq_iff, h]
  case isFalse h =>
    rw [and_eq_and_iff_bits_eq (fields := [(6, 0), (11, 7), (19, 15), (24, 20), (14, 12)]) (by decide)]
    simp [opcodeOf, rdOf_eq_iff, rs1Of_eq_iff, rs2Of_eq_iff, funct3Of, h]

/-! ### The opcode table (R63, R115) -/

/-- The bits that some row of the opcode table reads: the opcode, funct3 and `instr[30]`. -/
def tableBits : Word := 0x4000707F

/-- The word with the given opcode, funct3 and `instr[30]`, and 0 in every bit the opcode table does not read. -/
def tableWord (opc : BitVec 7) (f3 : BitVec 3) (bit30 : Bool) : Word :=
  0#1 ++ BitVec.ofBool bit30 ++ 0#15 ++ f3 ++ 0#5 ++ opc

/-- The fields of a table word are those it was built from. -/
theorem tableWord_fields (opc : BitVec 7) (f3 : BitVec 3) (b : Bool) :
    opcodeOf (tableWord opc f3 b) = opc ∧ funct3Of (tableWord opc f3 b) = f3 ∧
    (tableWord opc f3 b).getLsbD 30 = b := by
  have hbits : ∀ hi lo, bits (tableWord opc f3 b) hi lo = BitVec.extractLsb' (n := 1 + 1 + 15 + 3 + 5 + 7) lo
      (hi - lo + 1) (0#1 ++ BitVec.ofBool b ++ 0#15 ++ f3 ++ 0#5 ++ opc) := fun _ _ => rfl
  have hfields : opcodeOf (tableWord opc f3 b) = opc ∧ funct3Of (tableWord opc f3 b) = f3 ∧
      bits (tableWord opc f3 b) 30 30 = BitVec.ofBool b := by
    refine ⟨?_, ?_, ?_⟩ <;>
    simp (disch := decide) only [opcodeOf, funct3Of, hbits, BitVec.extractLsb'_append_eq_of_add_le,
      BitVec.extractLsb'_append_eq_of_le, BitVec.extractLsb'_eq_self, Nat.reduceSub]
  obtain ⟨hopc, hf3, hbit30⟩ := hfields
  refine ⟨hopc, hf3, ?_⟩
  calc (tableWord opc f3 b).getLsbD 30
    _ = (bits (tableWord opc f3 b) 30 30).getLsbD 0 := (getLsbD_bits _ 30 30 0).symm
    _ = b := by rw [hbit30]; cases b <;> rfl

/-- Words that agree on the opcode, funct3 and `instr[30]` are covered by the same rows. -/
theorem tableMnemonics_congr {w w' : Word} (h : w &&& tableBits = w' &&& tableBits) :
    tableMnemonics w = tableMnemonics w' := by
  have hrows : ∀ r ∈ opcodeRows, tableBits &&& r.mask = r.mask := by decide
  have hcovers : ∀ r ∈ opcodeRows, r.covers w = r.covers w' := fun r hr => by
    rw [OpcodeRow.covers, OpcodeRow.covers, ← hrows r hr, ← BitVec.and_assoc, h, BitVec.and_assoc]
  rw [tableMnemonics, tableMnemonics, List.filter_congr hcovers]

/-- The opcode table reads a word's opcode, funct3 and `instr[30]` only. -/
theorem tableMnemonics_eq_tableWord (w : Word) :
    tableMnemonics w = tableMnemonics (tableWord (opcodeOf w) (funct3Of w) (w.getLsbD 30)) := by
  obtain ⟨hopc, hf3, hbit30⟩ := tableWord_fields (opcodeOf w) (funct3Of w) (w.getLsbD 30)
  refine tableMnemonics_congr ((and_eq_and_iff_bits_eq (fields := [(6, 0), (14, 12), (30, 30)]) (by decide) _ _).2 ?_)
  simp only [List.forall_mem_cons]
  exact ⟨hopc.symm, hf3.symm, (bits_one_eq_iff _ _ 30).2 hbit30.symm, List.forall_mem_nil _⟩

/-- No row covers a word with another opcode: each row's mask keeps the whole opcode (R115). -/
theorem tableMnemonics_of_not_recognised {w : Word} (h : opcodeOf w ∉ recognisedOpcodes) :
    tableMnemonics w = ["UNKNOWN"] := by
  have hrow : ∀ r ∈ opcodeRows, bits r.mask 6 0 = BitVec.allOnes 7 ∧ opcodeOf r.pattern ∈ recognisedOpcodes := by
    decide
  have hfilter : opcodeRows.filter (·.covers w) = [] := by
    refine List.filter_eq_nil_iff.2 fun r hr hcovers => ?_
    obtain ⟨hones, hopc⟩ := hrow r hr
    refine h ?_
    have hmask : w &&& r.mask = r.pattern := by simpa [OpcodeRow.covers] using hcovers
    have hw : opcodeOf r.pattern = opcodeOf w := by
      rw [← hmask, opcodeOf, bits_and, hones]
      exact BitVec.and_allOnes
    exact hw ▸ hopc
  rw [tableMnemonics, hfilter]
  rfl

theorem tableMnemonics_lw : ∀ f3 b, tableMnemonics (tableWord Config.opcLw f3 b) = ["LW"] := by decide

theorem tableMnemonics_sw : ∀ f3 b, tableMnemonics (tableWord Config.opcSw f3 b) = ["SW"] := by decide

theorem tableMnemonics_beq : ∀ f3 b, tableMnemonics (tableWord Config.opcBeq f3 b) = ["BEQ"] := by decide

theorem tableMnemonics_regReg (f3 : BitVec 3) (b : Bool) (rd rs1 rs2 : RegIdx) :
    tableMnemonics (tableWord Config.opcR f3 b) = [(regRegInstr f3 b rd rs1 rs2).mnemonic] := by
  rcases funct3_cases f3 with rfl | rfl | rfl | rfl | rfl | rfl | rfl | rfl <;> cases b <;> rfl

/-! ### Sign extension and immediates (R53 to R57) -/

theorem toNat_sext {n : Nat} (v : BitVec n) (h : n ≤ 32) :
    (sext v).toNat = v.toNat + if v.msb then 2 ^ 32 - 2 ^ n else 0 := by
  rw [sext, BitVec.toNat_signExtend, BitVec.toNat_setWidth_of_le h]

theorem getLsbD_sext {n : Nat} (v : BitVec n) {i : Nat} (h : i < 32) :
    (sext v).getLsbD i = if i < n then v.getLsbD i else v.msb := by
  rw [sext, BitVec.getLsbD_signExtend, decide_eq_true h, Bool.true_and]

/-- A sign-extended field, as an integer: its unsigned value, less `2^N` when its top bit is set (R53). -/
theorem toInt_sext {n : Nat} (v : BitVec n) (h : n ≤ 32) :
    (sext v).toInt = (v.toNat : Int) - if v.msb then 2 ^ n else 0 := by
  rw [sext, BitVec.toInt_signExtend_of_le h, BitVec.toInt_eq_msb_cond]
  split <;> simp

theorem toInt_sext_bounds (v : BitVec 12) : -2048 ≤ (sext v).toInt ∧ (sext v).toInt ≤ 2047 := by
  have hlo := v.le_toInt
  have hhi := v.toInt_lt
  rw [sext, BitVec.toInt_signExtend_of_le (by decide)]
  omega

theorem immIField_msb (w : Word) : (immIField w).msb = w.getLsbD 31 := by
  rw [BitVec.msb_eq_getLsbD_last]
  exact getLsbD_bits w 31 20 11

theorem immSField_msb (w : Word) : (immSField w).msb = w.getLsbD 31 := by
  rw [immSField, BitVec.msb_append, if_neg (by decide), BitVec.msb_eq_getLsbD_last]
  exact getLsbD_bits w 31 25 6

theorem immBField_msb (w : Word) : (immBField w).msb = w.getLsbD 31 := by
  rw [immBField]
  iterate 4 rw [BitVec.msb_append, if_neg (by decide)]
  rw [BitVec.msb_eq_getLsbD_last]
  exact getLsbD_bits w 31 31 0

/-- The branch offset by its groups of bits; `instr[31]` alone gives the sign (R56, R57). -/
theorem toInt_immB (w : Word) :
    (immB w).toInt = (if w.getLsbD 7 then 2048 else 0) + (bits w 30 25).toNat * 32 + (bits w 11 8).toNat * 2
      - (if w.getLsbD 31 then 4096 else 0) := by
  have hw := w.isLt
  rw [immB, toInt_sext _ (by decide), immBField_msb, toNat_immBField, toNat_bits, toNat_bits, getLsbD_eq_odd w 31,
    getLsbD_eq_odd w 7]
  simp only [decide_eq_true_eq]
  split_ifs <;> omega

/-! ### The obligations -/

/-- Settles O1: an encoded word has the fields it was built from, and each decodes by its opcode. -/
theorem decodeInvertsEncode : Obligations.DecodeInvertsEncode := by
  intro i hwf
  cases i with
  | lw rd rs1 imm =>
    obtain ⟨hopc, hrd, hrs1, himm⟩ := encode_lw_fields rd rs1 imm
    rw [decode_of_opcLw _ hopc, hrd, hrs1, himm]
  | sw rs2 rs1 imm =>
    obtain ⟨hopc, hrs2, hrs1, himm⟩ := encode_sw_fields rs2 rs1 imm
    rw [decode_of_opcSw _ hopc, hrs2, hrs1, himm]
  | beq rs1 rs2 off =>
    obtain ⟨hopc, hrs1, hrs2, himm⟩ := encode_beq_fields rs1 rs2 off (by simpa [Instr.wf] using hwf)
    rw [decode_of_opcBeq _ hopc, hrs1, hrs2, himm]
  | unknown w => exact decode_of_other w ((unknown_wf_iff w).1 hwf)
  | add rd rs1 rs2 | sub rd rs1 rs2 | slt rd rs1 rs2 | or rd rs1 rs2 | and rd rs1 rs2 | rdef001 rd rs1 rs2
  | rdef011 rd rs1 rs2 | rdef100 rd rs1 rs2 | rdef101 rd rs1 rs2 => exact decode_encodeRegReg _ _ rd rs1 rs2

/-- Settles O2: the encoder lays out the fields the word was decoded to, and two words with the same fields agree under
the row's mask. -/
theorem encodeKeepsEveryDecodedBit : Obligations.EncodeKeepsEveryDecodedBit := by
  intro w
  rcases decode_cases w with ⟨hopc, e⟩ | ⟨hopc, e⟩ | ⟨hopc, -⟩ | ⟨hopc, e⟩ | ⟨-, e⟩
  · rw [e]
    exact (and_formatI_iff _ w).2 (hopc ▸ encode_lw_fields _ _ _)
  · rw [e]
    exact (and_formatS_iff _ w).2 (hopc ▸ encode_sw_fields _ _ _)
  · rw [decode_eq_regRegInstr hopc]
    obtain ⟨f7, hencode, hf7⟩ := encode_regRegInstr (funct3Of w) (w.getLsbD 30) (rdOf w) (rs1Of w) (rs2Of w)
    obtain ⟨ho, hrd, hrs1, hrs2, hf3, -⟩ := encodeRegReg_fields f7 (funct3Of w) (rdOf w) (rs1Of w) (rs2Of w)
    rw [hencode]
    exact and_regReg_iff.2
      ⟨ho.trans hopc.symm, hrd, hrs1, hrs2, hf3, fun h => (encodeRegReg_bit30 _ _ _ _ _).trans (hf7 h)⟩
  · rw [e]
    exact (and_formatB_iff _ w).2 (hopc ▸ encode_beq_fields _ _ _ (Machine.even_immBField w))
  · rw [e]
    rfl

/-- Settles O3: words that agree under the row's mask have the same fields, and decoding reads those alone. -/
theorem ignoredBitsTakeNoPartInDecoding : Obligations.IgnoredBitsTakeNoPartInDecoding := by
  intro w w' h
  rcases decode_cases w with ⟨hopc, e⟩ | ⟨hopc, e⟩ | ⟨hopc, -⟩ | ⟨hopc, e⟩ | ⟨-, e⟩
  · rw [e] at h ⊢
    obtain ⟨ho, hrd, hrs1, himm⟩ := (and_formatI_iff w' w).1 h
    rw [decode_of_opcLw w' (ho.trans hopc), hrd, hrs1, himm]
  · rw [e] at h ⊢
    obtain ⟨ho, hrs2, hrs1, himm⟩ := (and_formatS_iff w' w).1 h
    rw [decode_of_opcSw w' (ho.trans hopc), hrs2, hrs1, himm]
  · rw [decode_eq_regRegInstr hopc] at h ⊢
    obtain ⟨ho, hrd, hrs1, hrs2, hf3, hbit30⟩ := and_regReg_iff.1 h
    rw [decode_eq_regRegInstr (ho.trans hopc), hrd, hrs1, hrs2, hf3]
    exact regRegInstr_congr hbit30 _ _ _
  · rw [e] at h ⊢
    obtain ⟨ho, hrs1, hrs2, himm⟩ := (and_formatB_iff w' w).1 h
    rw [decode_of_opcBeq w' (ho.trans hopc), hrs1, hrs2, himm]
  · rw [e] at h
    have hones : ∀ v : Word, v &&& 0xFFFFFFFF = v := fun v => BitVec.and_allOnes
    rw [← hones w', ← hones w]
    exact congrArg decode h

/-- Settles O4: the B-format field ends in a 0, and UNKNOWN is reached only past the four opcodes. -/
theorem decodedInstructionsAreWellFormed : Obligations.DecodedInstructionsAreWellFormed := by
  intro w
  rcases decode_cases w with ⟨-, e⟩ | ⟨-, e⟩ | ⟨hopc, -⟩ | ⟨-, e⟩ | ⟨hopc, e⟩
  · rw [e]; rfl
  · rw [e]; rfl
  · rw [decode_eq_regRegInstr hopc]
    exact regRegInstr_wf _ _ _ _ _
  · rw [e, Instr.wf, Machine.even_immBField]; rfl
  · rw [e]
    exact (unknown_wf_iff w).2 hopc

/-- Settles O5: the table reads the opcode, funct3 and `instr[30]` only, so each opcode is settled at the words that
hold nothing else, and past the four opcodes no row covers the word. -/
theorem opcodeTablePartitionsTheWords : Obligations.OpcodeTablePartitionsTheWords := by
  intro w
  rcases decode_cases w with ⟨hopc, e⟩ | ⟨hopc, e⟩ | ⟨hopc, -⟩ | ⟨hopc, e⟩ | ⟨hopc, e⟩
  · rw [e, tableMnemonics_eq_tableWord, hopc, tableMnemonics_lw, Instr.mnemonic]
  · rw [e, tableMnemonics_eq_tableWord, hopc, tableMnemonics_sw, Instr.mnemonic]
  · rw [decode_eq_regRegInstr hopc, tableMnemonics_eq_tableWord, hopc]
    exact tableMnemonics_regReg _ _ _ _ _
  · rw [e, tableMnemonics_eq_tableWord, hopc, tableMnemonics_beq, Instr.mnemonic]
  · rw [e, tableMnemonics_of_not_recognised hopc, Instr.mnemonic]

/-- Settles O8: a field is the word shifted right and cut to its width, and the full width cuts nothing. -/
theorem bitFieldIsQuotientAndRemainder : Obligations.BitFieldIsQuotientAndRemainder := by
  refine ⟨fun w hi lo _ _ => ⟨toNat_bits w hi lo, (bits w hi lo).isLt⟩, fun w => ?_⟩
  rw [toNat_bits, Nat.pow_zero, Nat.div_one]
  exact Nat.mod_eq_of_lt w.isLt

/-- Settles O9: the top bit of the field, set exactly from `2^(N-1)` on, is copied to every higher bit. -/
theorem signExtensionIsTwosComplement : Obligations.SignExtensionIsTwosComplement := by
  intro n v hn hn32
  refine ⟨?_, fun i hi => ?_, fun i hi hi32 => ?_⟩
  · have hpow : 2 ^ n ≤ 2 ^ 32 := Nat.pow_le_pow_right (by decide) hn32
    rw [toNat_sext v hn32, BitVec.msb_eq_decide]
    by_cases hv : v.toNat < 2 ^ (n - 1)
    · rw [if_pos hv]
      simp [Nat.not_le.2 hv]
    · rw [if_neg hv, if_pos (decide_eq_true (Nat.le_of_not_lt hv)), Nat.add_sub_assoc hpow]
  · rw [getLsbD_sext v (by omega), if_pos hi]
  · rw [getLsbD_sext v hi32, if_neg (by omega), BitVec.msb_eq_getLsbD_last]

/-- Settles O10: the field's top bit, which the sign extension subtracts, is `instr[31]`. -/
theorem immediateIIsItsSignedField : Obligations.ImmediateIIsItsSignedField := by
  refine ⟨fun w => ⟨?_, toInt_sext_bounds (immIField w)⟩, by decide⟩
  rw [immI, toInt_sext _ (by decide), immIField_msb]
  rfl

/-- Settles O11: the field is two groups of bits, and its top bit is `instr[31]`. -/
theorem immediateSIsItsSignedField : Obligations.ImmediateSIsItsSignedField := by
  refine ⟨fun w => ⟨?_, toInt_sext_bounds (immSField w)⟩, by decide⟩
  rw [immS, toInt_sext _ (by decide), immSField_msb, immSField, toNat_append_eq]
  rfl

/-- Settles O12: evenness and range follow from the value by the widths of the groups of bits. -/
theorem immediateBIsItsSignedField : Obligations.ImmediateBIsItsSignedField := by
  refine ⟨fun w => ?_, by decide⟩
  have hval := toInt_immB w
  have hmid : (bits w 30 25).toNat < 64 := (bits w 30 25).isLt
  have hlow : (bits w 11 8).toNat < 16 := (bits w 11 8).isLt
  refine ⟨hval, ?_, ?_, ?_, fun _ => rfl⟩
  all_goals
    rw [hval]
    split_ifs <;> omega

/-- Settles O13: the immediate field of an encoded word is the encoded immediate. -/
theorem encodedImmediatesAreRecovered : Obligations.EncodedImmediatesAreRecovered := by
  refine ⟨fun rd rs1 v => ?_, fun rs2 rs1 v => ?_, fun rs1 rs2 off heven => ?_⟩
  · obtain ⟨-, -, -, himm⟩ := encode_lw_fields rd rs1 v
    exact congrArg sext himm
  · obtain ⟨-, -, -, himm⟩ := encode_sw_fields rs2 rs1 v
    exact congrArg sext himm
  · obtain ⟨-, -, -, himm⟩ := encode_beq_fields rs1 rs2 off heven
    exact congrArg sext himm

end Sys2Proof

namespace Sys2Proof.Machine

/-! ### No refusal (R62) -/

theorem attempt_ne_refused {α : Type} (e : Except Fault α) {k : α → Host.Outcome State Fault Refusal} {r : Refusal}
    (hk : ∀ a, k a ≠ .refused r) : attempt e k ≠ .refused r := by
  cases e with
  | ok a => exact hk a
  | error f => nofun

theorem exec_ne_refused (i : Instr) (s : State) (r : Refusal) : exec i s ≠ .refused r := by
  cases i with
  | lw rd rs1 imm => exact attempt_ne_refused _ fun _ => nofun
  | sw rs2 rs1 imm => exact attempt_ne_refused _ fun _ => nofun
  | beq rs1 rs2 off =>
    rw [exec, execBeq_eq]
    split <;> nofun
  | unknown w => nofun
  | add rd rs1 rs2 | sub rd rs1 rs2 | slt rd rs1 rs2 | or rd rs1 rs2 | and rd rs1 rs2 | rdef001 rd rs1 rs2
  | rdef011 rd rs1 rs2 | rdef100 rd rs1 rs2 | rdef101 rd rs1 rs2 => nofun

theorem step_ne_refused (s : State) (r : Refusal) : step s ≠ .refused r := by
  cases h : s.halted with
  | some f => rw [step_of_halted s f h]; nofun
  | none =>
    rw [step_of_running s h]
    exact attempt_ne_refused _ fun w => exec_ne_refused (decode w) s.hostTurn r

/-- Settles O45: an attempt fails only by a fault and every meaning ends in a next state, so neither can refuse. -/
theorem noStepIsRefused : Obligations.NoStepIsRefused :=
  ⟨step_ne_refused, exec_ne_refused, decode_of_other _ (by decide), decode_of_other _ (by decide)⟩

end Sys2Proof.Machine
end

section
/-! PROOFS. The datapath (40_datapath.md): the control bundle of each opcode (R71, R72), the ALU Decoder and the ALU
(R73 to R78), what the steps of the eleven-step cycle can do (R80, R83), and from that its agreement with the
per-instruction meanings (R81), what a cycle changes (R84) and what the ports show of it (R85). -/

namespace Sys2Proof.Machine

/-! ### The control bundle (R71, R72) -/

theorem opcode_cases (opc : BitVec 7) :
    opc = Config.opcLw ∨ opc = Config.opcSw ∨ opc = Config.opcR ∨ opc = Config.opcBeq ∨ opc ∉ recognisedOpcodes := by
  have hmem := Decidable.em (opc ∈ recognisedOpcodes)
  simpa only [recognisedOpcodes, List.mem_cons, List.not_mem_nil, or_false, or_assoc] using hmem

theorem controlDecode_of_other {opc : BitVec 7} (h : opc ∉ recognisedOpcodes) : controlDecode opc = inertControl := by
  simp only [recognisedOpcodes, List.mem_cons, List.not_mem_nil, or_false, not_or] at h
  simp [controlDecode, h]

/-- Settles O14: one row of the table for each recognised opcode, and the inert bundle for the rest. -/
theorem controlSignalsByOpcode : Obligations.ControlSignalsByOpcode := by
  intro opc
  rcases opcode_cases opc with rfl | rfl | rfl | rfl | hother
  · decide
  · decide
  · decide
  · decide
  · rw [controlDecode_of_other hother]
    simp only [recognisedOpcodes, List.mem_cons, List.not_mem_nil, or_false, not_or] at hother
    simp [inertControl, hother]

theorem regWrite_iff (opc : BitVec 7) :
    (controlDecode opc).regWrite = true ↔ opc = Config.opcLw ∨ opc = Config.opcR := by
  obtain ⟨hregWrite, -⟩ := controlSignalsByOpcode opc
  exact hregWrite

theorem memWrite_iff (opc : BitVec 7) : (controlDecode opc).memWrite = true ↔ opc = Config.opcSw := by
  obtain ⟨-, hmemWrite, -⟩ := controlSignalsByOpcode opc
  exact hmemWrite

theorem resultSrc_iff (opc : BitVec 7) : (controlDecode opc).resultSrc = .memory ↔ opc = Config.opcLw := by
  obtain ⟨-, -, hresultSrc, -⟩ := controlSignalsByOpcode opc
  exact hresultSrc

theorem branch_iff (opc : BitVec 7) : (controlDecode opc).branch = true ↔ opc = Config.opcBeq := by
  obtain ⟨-, -, -, hbranch, -⟩ := controlSignalsByOpcode opc
  exact hbranch

/-- No bundle both stores and loads (R40). -/
theorem not_memWrite_and_resultSrc (opc : BitVec 7) :
    ¬ ((controlDecode opc).memWrite = true ∧ (controlDecode opc).resultSrc = .memory) := by
  rw [memWrite_iff, resultSrc_iff]
  rintro ⟨rfl, hlw⟩
  exact absurd hlw (by decide)

/-! ### The ALU Decoder and the ALU (R73 to R78) -/

/-- Settles O15: the decoder branches on the op-class, then on funct3. -/
theorem aluDecoderContract : Obligations.AluDecoderContract := by
  intro w
  refine ⟨rfl, rfl, ?subtract, ?add, ?slt, ?or, ?and, ?other⟩
  case subtract =>
    rintro hf ⟨h30, h5⟩
    simp [aluDecode, hf, h30, h5]
  case add =>
    intro hf hbits
    simpa [aluDecode, hf] using hbits
  case slt | or | and =>
    intro hf
    rw [aluDecode, hf]
    rfl
  case other =>
    intro hf
    simp only [List.mem_cons, List.not_mem_nil, or_false, not_or] at hf
    simp [aluDecode, hf]

/-- Settles O16: 32-bit addition is addition modulo 2^32. -/
theorem aluAddIsTheSumModulo : Obligations.AluAddIsTheSumModulo :=
  ⟨fun a b => BitVec.toNat_add a b, by decide, by decide, by decide⟩

/-- Settles O17: 32-bit subtraction adds the two's complement, which differs from the integer difference by 2^32. -/
theorem aluSubtractZeroExactlyOnEqual : Obligations.AluSubtractZeroExactlyOnEqual := by
  intro a b
  refine ⟨?_, zeroFlag_subtract a b⟩
  have hsub : (alu a b .subtract).toNat = (2 ^ 32 - b.toNat + a.toNat) % 2 ^ 32 := BitVec.toNat_sub a b
  have hb := b.isLt
  omega

/-- Settles O18: each result is the truth value of its condition on the operands. -/
theorem aluLogicalResultsAreBooleans : Obligations.AluLogicalResultsAreBooleans := by
  refine ⟨fun a b => ⟨fun ha hb => if_pos ⟨ha, hb⟩, fun h => if_neg h, fun h => if_pos h, fun h => if_neg h⟩, ?_⟩
  decide

/-- Settles O19: the signed comparison selects the smaller operand. -/
theorem aluSetLessThanIsSignedMinimum : Obligations.AluSetLessThanIsSignedMinimum := by
  refine ⟨fun a b => ⟨fun h => if_pos h, fun h => if_neg h, ?_⟩, by decide, by decide, by decide⟩
  by_cases h : a.toInt < b.toInt
  · calc (alu a b .setLessThan).toInt
      _ = a.toInt := congrArg BitVec.toInt (if_pos h)
      _ = min a.toInt b.toInt := (min_eq_left h.le).symm
  · calc (alu a b .setLessThan).toInt
      _ = b.toInt := congrArg BitVec.toInt (if_neg h)
      _ = min a.toInt b.toInt := (min_eq_right (not_lt.1 h)).symm

/-! ### What the steps of a cycle can do (R80) -/

theorem State.memRead_ok {s : State} {a v : Word} (h : s.memRead a = .ok v) : v = s.dataWord (wordIndex a) := by
  by_cases hrange : wordIndex a < s.dmemWords
  · rw [s.memRead_inRange a hrange] at h
    exact (Except.ok.inj h).symm
  · rw [s.memRead_outOfRange a (Nat.le_of_not_lt hrange)] at h
    cases h

theorem State.memWrite_ok {s t : State} {a v : Word} (h : s.memWrite a v = .ok t) :
    t = s.setDataWord (wordIndex a) v := by
  by_cases hrange : wordIndex a < s.dmemWords
  · rw [s.memWrite_inRange a v hrange] at h
    exact (Except.ok.inj h).symm
  · rw [s.memWrite_outOfRange a v (Nat.le_of_not_lt hrange)] at h
    cases h

/-- Step 7 stores the addressed word when memory-write is asserted, and else does nothing. -/
theorem State.storeStep_ok {s s7 : State} {g : Signals} (h : s.storeStep g = .ok s7) :
    (g.ctl.memWrite = true ∧ s7 = s.setDataWord (wordIndex g.res) g.r2) ∨ (g.ctl.memWrite = false ∧ s7 = s) := by
  unfold State.storeStep at h
  cases hwe : g.ctl.memWrite with
  | true =>
    rw [hwe, if_pos rfl] at h
    exact .inl ⟨rfl, State.memWrite_ok h⟩
  | false =>
    rw [hwe, if_neg Bool.false_ne_true] at h
    exact .inr ⟨rfl, (Except.ok.inj h).symm⟩

theorem State.storeStep_readReg {s s7 : State} {g : Signals} (h : s.storeStep g = .ok s7) (r : RegIdx) :
    s7.readReg r = s.readReg r := by
  rcases State.storeStep_ok h with ⟨-, rfl⟩ | ⟨-, rfl⟩ <;> rfl

/-- Step 8 from memory reads the addressed word. -/
theorem State.resultStep_memory {s : State} {g : Signals} {wb : Word} (hsrc : g.ctl.resultSrc = .memory)
    (h : s.resultStep g = .ok wb) : wb = s.dataWord (wordIndex g.res) := by
  rw [State.resultStep, hsrc] at h
  exact State.memRead_ok h

theorem State.writebackStep_write {w : Word} {g : Signals} (hreg : g.ctl.regWrite = true) (s : State) (wb : Word) :
    s.writebackStep w g wb = s.writeReg (rdOf w) wb := if_pos hreg

@[simp] theorem State.dataWord_writebackStep (s : State) (w : Word) (g : Signals) (wb : Word) (k : Nat) :
    (s.writebackStep w g wb).dataWord k = s.dataWord k := by
  unfold State.writebackStep
  split <;> rfl

/-- Step 9 changes rd alone, and only when register-write is asserted. -/
theorem State.readReg_writebackStep_other {s : State} {w : Word} {g : Signals} {wb : Word} {r : RegIdx}
    (h : ¬ (g.ctl.regWrite = true ∧ r = rdOf w)) : (s.writebackStep w g wb).readReg r = s.readReg r := by
  unfold State.writebackStep
  split
  next hreg => exact s.readReg_writeReg_other _ r wb fun hr => h ⟨hreg, hr⟩
  next => rfl

/-- A cycle that completes passed steps 7 and 8 and committed steps 9 and 10. -/
theorem State.datapath_next {s t : State} {w : Word} (h : s.datapath w = .next t) :
    ∃ s7 wb, s.storeStep (s.signals w) = .ok s7 ∧ s7.resultStep (s.signals w) = .ok wb ∧
      t = (s7.writebackStep w (s.signals w) wb).setPc (nextPc s.pc (s.signals w)) := by
  obtain ⟨s7, hstore, h⟩ := attempt_next _ _ t h
  obtain ⟨wb, hresult, h⟩ := attempt_next _ _ t h
  exact ⟨s7, wb, hstore, hresult, (Host.Outcome.next.inj h).symm⟩

/-! ### What a cycle that completes changes (R83, R84) -/

theorem State.datapath_pc {s t : State} {w : Word} (h : s.datapath w = .next t) :
    t.pc = nextPc s.pc (s.signals w) := by
  obtain ⟨s7, wb, -, -, rfl⟩ := State.datapath_next h
  rfl

theorem State.datapath_readReg_other {s t : State} {w : Word} {r : RegIdx} (h : s.datapath w = .next t)
    (hr : ¬ ((s.signals w).ctl.regWrite = true ∧ r = rdOf w)) : t.readReg r = s.readReg r := by
  obtain ⟨s7, wb, hstore, -, rfl⟩ := State.datapath_next h
  rw [State.readReg_setPc, State.readReg_writebackStep_other hr, State.storeStep_readReg hstore]

/-- With memory-write asserted, the addressed data word becomes the second source register's value. -/
theorem State.datapath_store {s t : State} {w : Word} (h : s.datapath w = .next t)
    (hwe : (s.signals w).ctl.memWrite = true) (k : Nat) :
    t.dataWord k = (s.setDataWord (wordIndex (s.signals w).res) (s.signals w).r2).dataWord k := by
  obtain ⟨s7, wb, hstore, -, rfl⟩ := State.datapath_next h
  rcases State.storeStep_ok hstore with ⟨-, rfl⟩ | ⟨hwe', -⟩
  · simp
  · exact absurd hwe (Bool.eq_false_iff.1 hwe')

theorem State.datapath_sameData {s t : State} {w : Word} (h : s.datapath w = .next t)
    (hwe : (s.signals w).ctl.memWrite = false) : SameData s t := by
  intro k
  obtain ⟨s7, wb, hstore, -, rfl⟩ := State.datapath_next h
  rcases State.storeStep_ok hstore with ⟨hwe', -⟩ | ⟨-, rfl⟩
  · exact absurd hwe' (Bool.eq_false_iff.1 hwe)
  · simp

/-- With result-source memory, rd receives the addressed data word: such a cycle writes a register (R71) and has stored
nothing. -/
theorem State.datapath_load {s t : State} {w : Word} (h : s.datapath w = .next t)
    (hsrc : (s.signals w).ctl.resultSrc = .memory) :
    t.readReg (rdOf w) = s.dataWord (wordIndex (s.signals w).res) := by
  have hreg : (s.signals w).ctl.regWrite = true := (regWrite_iff _).2 (.inl ((resultSrc_iff _).1 hsrc))
  obtain ⟨s7, wb, hstore, hresult, rfl⟩ := State.datapath_next h
  rcases State.storeStep_ok hstore with ⟨hwe, -⟩ | ⟨-, rfl⟩
  · exact absurd ⟨hwe, hsrc⟩ (not_memWrite_and_resultSrc _)
  · rw [State.writebackStep_write hreg, State.readReg_setPc, State.readReg_writeReg_same,
      State.resultStep_memory hsrc hresult]

/-! ### The signals of a store and of a branch (R83, R91) -/

theorem State.signals_res_of_opcSw (s : State) {w : Word} (h : opcodeOf w = Config.opcSw) :
    (s.signals w).res = s.readReg (rs1Of w) + immS w := by
  rw [State.signals, h]
  rfl

/-- The next pc is the branch target exactly for a branch whose operands subtract to zero. -/
theorem nextPc_signals (s : State) (w pc : Word) :
    nextPc pc (s.signals w) =
      if opcodeOf w = Config.opcBeq ∧ s.readReg (rs1Of w) = s.readReg (rs2Of w) then pc + immB w else pc + 4 := by
  by_cases hopc : opcodeOf w = Config.opcBeq
  · have hnext : nextPc pc (s.signals w) =
        if zeroFlag (alu (s.readReg (rs1Of w)) (s.readReg (rs2Of w)) .subtract) then pc + immB w else pc + 4 := by
      rw [State.signals, hopc]
      rfl
    simp only [hnext, zeroFlag_subtract, hopc, true_and]
  · have hbranch : (s.signals w).ctl.branch = false := Bool.eq_false_iff.2 fun h => hopc ((branch_iff _).1 h)
    rw [nextPc, hbranch, Bool.false_and, if_neg Bool.false_ne_true, if_neg (not_and.2 fun h => absurd h hopc)]

/-! ### The datapath and the per-instruction meanings agree (R81) -/

/-- The ALU Decoder picks the operation of the instruction that second-level decode picks (R61, R73). -/
theorem exec_decodeRegReg (w : Word) (s : State) :
    exec (decodeRegReg w) s = regReg (aluDecode .rtypeClass w) (rdOf w) (rs1Of w) (rs2Of w) s := by
  unfold decodeRegReg aluDecode
  rcases funct3_cases (funct3Of w) with h | h | h | h | h | h | h | h <;> rw [h]
  case inl => cases w.getLsbD 30 && w.getLsbD 5 <;> rfl
  all_goals rfl

/-- A store leaves the pc, so advancing before or after it is the same. -/
theorem State.attempt_memWrite_setPc (s : State) (a v : Word) :
    (attempt (s.memWrite a v) fun t => .next (t.setPc (s.pc + 4))) =
      attempt (s.memWrite a v) fun t => .next t.advancePc := by
  cases h : s.memWrite a v with
  | error r => rfl
  | ok t =>
    obtain rfl := State.memWrite_ok h
    rfl

/-- Steps 2 to 11 on a word are the meaning of the instruction it decodes to. -/
theorem State.datapath_eq_exec (s : State) (w : Word) : s.datapath w = exec (decode w) s := by
  rcases decode_cases w with ⟨h, e⟩ | ⟨h, e⟩ | ⟨h, e⟩ | ⟨h, e⟩ | ⟨h, e⟩ <;> rw [e]
  · rw [State.datapath, State.signals, h]
    rfl
  · rw [State.datapath, State.signals, h]
    exact State.attempt_memWrite_setPc s _ _
  · rw [exec_decodeRegReg, State.datapath, State.signals, h]
    rfl
  · have hpath : s.datapath w = .next (s.setPc (nextPc s.pc (s.signals w))) := by
      rw [State.datapath, State.signals, h]
      rfl
    simp only [hpath, nextPc_signals, exec, execBeq_eq, h, true_and]
    split_ifs <;> rfl
  · rw [State.datapath, State.signals, controlDecode_of_other h]
    rfl

theorem datapathStep_of_halted (s : State) (r : Fault) (h : s.halted = some r) : datapathStep s = .next s := by
  rw [datapathStep, h]

theorem datapathStep_of_running (s : State) (h : s.halted = none) :
    datapathStep s = attempt (s.fetchWord s.pc) fun w => s.hostTurn.datapath w := by
  rw [datapathStep, h, State.hostTurn_fetchWord, State.hostTurn_pc]

/-! ### The obligations over a whole cycle -/

/-- A completed cycle on a fetched word is a completed datapath cycle after the collaborators' turn. -/
theorem datapath_of_step {s t : State} {w : Word} (hw : s.fetches w) (hs : step s = .next t) :
    s.hostTurn.datapath w = .next t := by
  rw [State.datapath_eq_exec, ← step_of_fetches s w hw, hs]

/-- Settles O38: both steps fetch alike, and on the fetched word the two executions are one. -/
theorem stepIsTheElevenStepCycle : Obligations.StepIsTheElevenStepCycle := by
  intro s
  cases hh : s.halted with
  | some r => rw [step_of_halted s r hh, datapathStep_of_halted s r hh]
  | none =>
    rw [step_of_running s hh, datapathStep_of_running s hh]
    exact congrArg (attempt _) (funext fun w => (State.datapath_eq_exec _ w).symm)

/-- Settles O40: step 10 of the cycle selects the pc, and the collaborators' turn changes neither pc nor registers. -/
theorem nextPcIsSequentialOrTakenBranch : Obligations.NextPcIsSequentialOrTakenBranch := by
  intro s t w hw hs
  rw [State.datapath_pc (datapath_of_step hw hs), nextPc_signals, State.hostTurn_readReg, State.hostTurn_readReg,
    State.hostTurn_pc]

/-- Settles O41: step 9 writes rd alone and step 7 the addressed word alone, each under its own control signal. -/
theorem oneCycleChangesOnlyItsTargets : Obligations.OneCycleChangesOnlyItsTargets := by
  intro s t w hw hs
  have hpath := datapath_of_step hw hs
  refine ⟨fun r hr => ?_, fun k hk => ?_, exec_sameEnvironment (State.datapath_eq_exec .. ▸ hpath)⟩
  · by_contra hne
    refine hr ((State.datapath_readReg_other hpath fun hwrite => hne ?_).trans (s.hostTurn_readReg r))
    exact ⟨hwrite.2, (regWrite_iff _).1 hwrite.1⟩
  · cases hwe : (s.hostTurn.signals w).ctl.memWrite with
    | false => exact absurd (State.datapath_sameData hpath hwe k) hk
    | true =>
      have hopc := (memWrite_iff _).1 hwe
      refine ⟨hopc, ?_⟩
      rw [State.datapath_store hpath hwe, State.signals_res_of_opcSw _ hopc, State.hostTurn_readReg] at hk
      by_contra hother
      exact hk (State.dataWord_setDataWord_other _ _ k _ hother)

/-- Settles O42: the strobes are the control signals of steps 7 and 8, and the address port is the word index both
access. -/
theorem portsDescribeTheDataAccess : Obligations.PortsDescribeTheDataAccess := by
  intro s t w hpath
  refine ⟨State.datapath_sameData hpath, fun hwe => ⟨?_, fun k hk => ?_⟩, fun hre => ?_, fun ⟨hwe, hre⟩ => ?_⟩
  · exact (State.datapath_store hpath hwe _).trans (s.dataWord_setDataWord_same _ _)
  · exact (State.datapath_store hpath hwe k).trans (s.dataWord_setDataWord_other _ k _ hk)
  · exact State.datapath_load hpath (beq_iff_eq.1 hre)
  · exact not_memWrite_and_resultSrc _ ⟨hwe, beq_iff_eq.1 hre⟩

end Sys2Proof.Machine
end

section
/-! PROOFS. Load word and store word (41_load_store.md): the effect of each (R90, R91), and the round trip of a stored
word over any run that leaves it alone (R92, R40). -/

namespace Sys2Proof.Machine

/-! ### The effect of each instruction (R90, R91) -/

/-- Settles O20: in range only rd and the pc are written; out of range the read of step 8 faults. -/
theorem loadWordEffect : Obligations.LoadWordEffect := by
  intro rd rs1 imm s
  constructor
  · intro hrange
    have hexec := execLw_inRange rd rs1 imm s hrange
    exact ⟨_, hexec, s.readReg_writeReg_same rd _, fun r hr => s.readReg_writeReg_other rd r _ hr, rfl, fun _ => rfl,
      exec_sameEnvironment (i := .lw rd rs1 imm) hexec⟩
  · exact execLw_outOfRange rd rs1 imm s

/-- Settles O21: in range only the addressed word and the pc are written; out of range the write of step 7 faults. -/
theorem storeWordEffect : Obligations.StoreWordEffect := by
  intro rs2 rs1 imm s
  constructor
  · intro hrange
    have hexec := execSw_inRange rs2 rs1 imm s hrange
    exact ⟨_, hexec, s.dataWord_setDataWord_same _ _, fun j hj => s.dataWord_setDataWord_other _ j _ hj, fun _ => rfl,
      rfl, exec_sameEnvironment (i := .sw rs2 rs1 imm) hexec⟩
  · exact execSw_outOfRange rs2 rs1 imm s

/-! ### A data word that a run leaves alone (R40, R84) -/

theorem step_of_executes {s : State} {i : Instr} (h : s.executes i) : step s = exec i s.hostTurn := by
  obtain ⟨w, hw, rfl⟩ := h
  exact step_of_fetches s w hw

/-- A cycle, faulting or not, keeps a data word that neither it nor a collaborator writes. -/
theorem cycle_dataWord_other {s : State} {k : Nat} (hstore : ¬ s.storesTo k) (hhost : ¬ s.hostWritesTo k) :
    (cycle s).dataWord k = s.dataWord k := by
  cases h : step s with
  | next t =>
    rw [cycle_of_next s t h]
    exact onlyAStoreOrTheHostChangesADataWord s t k h hstore hhost
  | fault r => rw [cycle_of_fault s r h, State.dataWord_halt, s.dataWord_hostTurn_other k hhost]
  | refused r => exact absurd h (step_ne_refused s r)

theorem cycles_dataWord_other (n : Nat) (s : State) (k : Nat) (hstore : ∀ m, m < n → ¬ (cycles m s).storesTo k)
    (hhost : ∀ m, m < n → ¬ (cycles m s).hostWritesTo k) : (cycles n s).dataWord k = s.dataWord k := by
  induction n with
  | zero => rfl
  | succ n ih =>
    rw [cycles_add_one, cycle_dataWord_other (hstore n n.lt_succ_self) (hhost n n.lt_succ_self)]
    exact ih (fun m hm => hstore m (hm.trans n.lt_succ_self)) fun m hm => hhost m (hm.trans n.lt_succ_self)

/-! ### The round trip (R92) -/

/-- A store that completes was in range, and leaves the stored register's value in the addressed word. -/
theorem step_sw_next {s s' : State} {rs2 rs1 : RegIdx} {imm : BitVec 12} (hsw : s.executes (.sw rs2 rs1 imm))
    (hs : step s = .next s') :
    wordIndex (effectiveAddr (s.hostTurn.readReg rs1) imm) < s.dmemWords ∧
      s'.dataWord (wordIndex (effectiveAddr (s.hostTurn.readReg rs1) imm)) = s.hostTurn.readReg rs2 := by
  obtain ⟨hin, hout⟩ := storeWordEffect rs2 rs1 imm s.hostTurn
  rw [State.hostTurn_dmemWords] at hin hout
  rw [step_of_executes hsw] at hs
  rcases Nat.lt_or_ge (wordIndex (effectiveAddr (s.hostTurn.readReg rs1) imm)) s.dmemWords with hrange | hrange
  · obtain ⟨t, ht, hword, -⟩ := hin hrange
    obtain rfl := Host.Outcome.next.inj (ht.symm.trans hs)
    exact ⟨hrange, hword⟩
  · cases (hout hrange).symm.trans hs

/-- A load in range completes and gives rd the addressed word as the collaborators' turn leaves it. -/
theorem step_lw_inRange {s : State} {rd rs1 : RegIdx} {imm : BitVec 12} (hlw : s.executes (.lw rd rs1 imm))
    (hrange : wordIndex (effectiveAddr (s.hostTurn.readReg rs1) imm) < s.dmemWords) :
    ∃ t, step s = .next t ∧
      t.readReg rd = s.hostTurn.dataWord (wordIndex (effectiveAddr (s.hostTurn.readReg rs1) imm)) := by
  rw [step_of_executes hlw]
  exact exec_lw_readReg_rd rd rs1 imm s.hostTurn (by rwa [State.hostTurn_dmemWords])

/-- Settles O34: the store puts the value into word `k` and shows `k` in range, every cycle of the run between and the
collaborators' turn before the load keep both, and the load reads word `k`. -/
theorem storeThenLoadReturnsTheStoredWord : Obligations.StoreThenLoadReturnsTheStoredWord := by
  intro s s' rs2 rs1 imm n rd rs1' imm' k hsw hk hs hstore hhost hlw hk'
  obtain ⟨hrange, hstored⟩ := step_sw_next hsw hs
  rw [hk] at hrange hstored
  have hwords : (cycles n s').dmemWords = s.dmemWords :=
    ((step_sameFixedParts hs).trans (cycles_sameFixedParts n s')).dmemWords
  obtain ⟨t, ht, hloaded⟩ := step_lw_inRange hlw (by rwa [hk', hwords])
  refine ⟨t, ht, ?_⟩
  calc t.readReg rd
    _ = (cycles n s').hostTurn.dataWord k := hk' ▸ hloaded
    _ = (cycles n s').dataWord k := State.dataWord_hostTurn_other _ k (hhost n le_rfl)
    _ = s'.dataWord k := cycles_dataWord_other n s' k hstore fun m hm => hhost m hm.le
    _ = s.hostTurn.readReg rs2 := hstored

end Sys2Proof.Machine
end

section
/-! PROOFS. The register-register instructions (42_rtype_alu.md): which words each row takes and the operation the ALU
Decoder gives it (R61, R73), and the effect and frame of each (R100 to R105). -/

namespace Sys2Proof.Machine

/-! ### The words of each row (R61, R73) -/

/-- The register-register opcode has `instr[5]` set, so the ALU Decoder subtracts on `instr[30]` alone (R73). -/
theorem getLsbD_five_of_opcR {w : Word} (h : opcodeOf w = Config.opcR) : w.getLsbD 5 = true := by
  have hfield : (opcodeOf w).getLsbD 5 = w.getLsbD 5 := getLsbD_bits w 6 0 5
  rw [← hfield, h]
  rfl

/-- A register-register word is decoded by its funct3 and by its `instr[30]` (R61). -/
theorem decode_of_funct3 {w : Word} {f3 : BitVec 3} {b : Bool} (hopc : opcodeOf w = Config.opcR)
    (hf3 : funct3Of w = f3) (hbit : w.getLsbD 30 = b) :
    decode w = regRegInstr f3 b (rdOf w) (rs1Of w) (rs2Of w) := by
  rw [decode_eq_regRegInstr hopc, hf3, hbit]

/-- A funct3 outside the four named ones is a row of its own, and the ALU Decoder gives it the add (R73, R105). -/
theorem decode_of_unlisted_funct3 {w : Word} {f3 : BitVec 3} (hopc : opcodeOf w = Config.opcR)
    (hunlisted : f3 ∉ [Config.f3AddSub, Config.f3Slt, Config.f3Or, Config.f3And]) (hf3 : funct3Of w = f3) :
    decode w = regRegInstr f3 (w.getLsbD 30) (rdOf w) (rs1Of w) (rs2Of w) ∧ aluDecode .rtypeClass w = .add := by
  obtain ⟨-, -, -, -, -, -, -, hother⟩ := aluDecoderContract w
  exact ⟨decode_of_funct3 hopc hf3 rfl, hother (hf3 ▸ hunlisted)⟩

/-! ### The effect and the frame (R100 to R105) -/

/-- Every register-register instruction completes with the ALU result in rd and the pc advanced, and changes nothing
else. -/
theorem exec_regReg_effect {rd rs1 rs2 : RegIdx} {i : Instr} {code : AluCode}
    (h : (i, code) ∈ regRegForms rd rs1 rs2) (s : State) :
    ∃ t, exec i s = .next t ∧ t.readReg rd = alu (s.readReg rs1) (s.readReg rs2) code ∧
      SameRegsExcept rd s t ∧ t.pc = s.pc + 4 ∧ SameData s t ∧ SameEnvironment s t := by
  have hexec := exec_eq_regReg h s
  exact ⟨_, hexec, s.readReg_writeReg_same rd _, fun r hr => s.readReg_writeReg_other rd r _ hr, rfl, fun _ => rfl,
    exec_sameEnvironment hexec⟩

/-- What the register-register instructions with the add share: ADD and the four RDEF rows (R74). -/
theorem exec_regReg_add_effect {rd rs1 rs2 : RegIdx} {i : Instr}
    (h : (i, .add) ∈ regRegForms rd rs1 rs2) (s : State) :
    ∃ t, exec i s = .next t ∧
      (t.readReg rd).toNat = ((s.readReg rs1).toNat + (s.readReg rs2).toNat) % 2 ^ 32 ∧
      SameRegsExcept rd s t ∧ t.pc = s.pc + 4 ∧ SameData s t ∧ SameEnvironment s t := by
  obtain ⟨hsum, -⟩ := aluAddIsTheSumModulo
  obtain ⟨t, hexec, hrd, hframe⟩ := exec_regReg_effect h s
  exact ⟨t, hexec, hrd ▸ hsum _ _, hframe⟩

/-! ### The obligations -/

/-- Settles O22: with `instr[30]` clear the add/subtract pair is ADD, and the ALU's add is the sum modulo 2^32. -/
theorem addEffect : Obligations.AddEffect := by
  refine ⟨fun w hopc hf3 h30 => ⟨decode_of_funct3 hopc hf3 h30, ?_⟩,
    fun _ _ _ => exec_regReg_add_effect (by simp [regRegForms])⟩
  obtain ⟨-, -, -, hadd, -⟩ := aluDecoderContract w
  exact hadd hf3 fun ⟨hset, _⟩ => Bool.false_ne_true (h30.symm.trans hset)

/-- Settles O23: with `instr[30]` set the add/subtract pair is SUB, `instr[5]` being set by the opcode, and a
difference of equal operands has the zero flag. -/
theorem subEffect : Obligations.SubEffect := by
  refine ⟨fun w hopc hf3 h30 => ⟨decode_of_funct3 hopc hf3 h30, ?_⟩, fun rd rs1 rs2 s => ?_⟩
  · obtain ⟨-, -, hsub, -⟩ := aluDecoderContract w
    exact hsub hf3 ⟨h30, getLsbD_five_of_opcR hopc⟩
  · have hform : (.sub rd rs1 rs2, .subtract) ∈ regRegForms rd rs1 rs2 := by simp [regRegForms]
    obtain ⟨t, hexec, hrd, hframe⟩ := exec_regReg_effect hform s
    obtain ⟨hdiff, hzero⟩ := aluSubtractZeroExactlyOnEqual (s.readReg rs1) (s.readReg rs2)
    rw [← hrd, zeroFlag_iff] at hzero
    exact ⟨t, hexec, hrd ▸ hdiff, fun hsame => hzero.2 (congrArg s.readReg hsame), hframe⟩

/-- Settles O24: the ALU's set-less-than is the selection of the signed minimum, and funct3 alone picks it. -/
theorem sltEffect : Obligations.SltEffect := by
  refine ⟨fun w hopc hf3 => ⟨decode_of_funct3 hopc hf3 rfl, ?_⟩,
    fun _ _ _ => exec_regReg_effect (code := .setLessThan) (by simp [regRegForms])⟩
  obtain ⟨-, -, -, -, hslt, -⟩ := aluDecoderContract w
  exact hslt hf3

/-- Settles O25: the ALU's logical-or is the boolean of "an operand is non-zero", and funct3 alone picks it. -/
theorem orEffect : Obligations.OrEffect := by
  refine ⟨fun w hopc hf3 => ⟨decode_of_funct3 hopc hf3 rfl, ?_⟩,
    fun _ _ _ => exec_regReg_effect (code := .logicalOr) (by simp [regRegForms])⟩
  obtain ⟨-, -, -, -, -, hor, -⟩ := aluDecoderContract w
  exact hor hf3

/-- Settles O26: the ALU's logical-and is the boolean of "both operands are non-zero", and funct3 alone picks it. -/
theorem andEffect : Obligations.AndEffect := by
  refine ⟨fun w hopc hf3 => ⟨decode_of_funct3 hopc hf3 rfl, ?_⟩,
    fun _ _ _ => exec_regReg_effect (code := .logicalAnd) (by simp [regRegForms])⟩
  obtain ⟨-, -, -, -, -, -, hand, -⟩ := aluDecoderContract w
  exact hand hf3

/-- Settles O27: each of the four other funct3 values is a row of its own, and all four are forms of the add. -/
theorem rdefEffect : Obligations.RdefEffect := by
  constructor
  · intro w hopc
    exact ⟨decode_of_unlisted_funct3 hopc (by decide), decode_of_unlisted_funct3 hopc (by decide),
      decode_of_unlisted_funct3 hopc (by decide), decode_of_unlisted_funct3 hopc (by decide)⟩
  · intro rd rs1 rs2 s i hi
    have hform : (i, .add) ∈ regRegForms rd rs1 rs2 := by
      simp only [List.mem_cons, List.not_mem_nil, or_false] at hi
      rcases hi with rfl | rfl | rfl | rfl <;> simp [regRegForms]
    exact exec_regReg_add_effect hform s

end Sys2Proof.Machine
end

section
/-! PROOFS. Branch if equal (43_branch.md): the two ways it completes and the frame of each (R110). -/

namespace Sys2Proof.Machine

/-! ### The two ways a branch completes (R110) -/

theorem exec_beq_of_eq {rs1 rs2 : RegIdx} (off : BitVec 13) {s : State} (h : s.readReg rs1 = s.readReg rs2) :
    exec (.beq rs1 rs2 off) s = .next (s.setPc (branchTarget s.pc off)) :=
  (execBeq_eq rs1 rs2 off s).trans (if_pos h)

theorem exec_beq_of_ne {rs1 rs2 : RegIdx} (off : BitVec 13) {s : State} (h : s.readReg rs1 ≠ s.readReg rs2) :
    exec (.beq rs1 rs2 off) s = .next s.advancePc :=
  (execBeq_eq rs1 rs2 off s).trans (if_neg h)

/-! ### The obligation -/

/-- Settles O28: the opcode alone makes a word a branch; taken or not, setting the pc is all that the branch does. -/
theorem branchEqualEffect : Obligations.BranchEqualEffect := by
  refine ⟨decode_of_opcBeq, fun rs1 rs2 off s => ?_⟩
  by_cases h : s.readReg rs1 = s.readReg rs2
  · have hexec := exec_beq_of_eq off h
    exact ⟨_, hexec, fun _ => rfl, absurd h, s.readReg_setPc _, s.dataWord_setPc _, exec_sameEnvironment hexec⟩
  · have hexec := exec_beq_of_ne off h
    exact ⟨_, hexec, fun heq => absurd heq h, fun _ => s.advancePc_pc, s.readReg_advancePc, s.dataWord_advancePc,
      exec_sameEnvironment hexec⟩

end Sys2Proof.Machine
end

section
/-! PROOFS. Words with an unrecognised opcode (44_unknown_opcode.md): the opcodes and the compressed words that fall
there (R112, R116), and the inert cycle (R115). -/

namespace Sys2Proof.Machine

/-! ### The low bits of a recognised opcode (R50) -/

theorem bits_one_zero_eq_extractLsb_opcodeOf (w : Word) : bits w 1 0 = (opcodeOf w).extractLsb 1 0 :=
  (BitVec.extractLsb'_extractLsb'_of_le (by decide)).symm

/-- The four opcodes all end in 11, so a compressed word has none of them. -/
theorem opcodeOf_not_recognised_of_compressed {w : Word} (h : bits w 1 0 ≠ (0b11 : BitVec 2)) :
    opcodeOf w ∉ recognisedOpcodes := by
  have hlow : ∀ opc ∈ recognisedOpcodes, opc.extractLsb 1 0 = (0b11 : BitVec 2) := by decide
  exact fun hopc => h ((bits_one_zero_eq_extractLsb_opcodeOf w).trans (hlow _ hopc))

/-! ### The obligations -/

/-- Settles O7: the listed opcodes are checked one by one, and a compressed word is told from a recognised one by its
low bits. -/
theorem unimplementedRiscvWordsAreUnknown : Obligations.UnimplementedRiscvWordsAreUnknown := by
  intro w h
  refine decode_of_other w ?_
  rcases h with hlisted | hlow
  · generalize opcodeOf w = opc at hlisted ⊢
    revert opc
    decide
  · exact opcodeOf_not_recognised_of_compressed hlow

/-- Settles O29: past the four opcodes both decoders take their last arm, and advancing the pc is all that the cycle
does. -/
theorem unknownEffect : Obligations.UnknownEffect := by
  refine ⟨fun w h => ⟨decode_of_other w h, controlDecode_of_other h⟩, fun w s => ?_⟩
  have hexec : exec (.unknown w) s = .next s.advancePc := rfl
  exact ⟨_, hexec, s.advancePc_pc, s.readReg_advancePc, s.dataWord_advancePc, exec_sameEnvironment hexec⟩

end Sys2Proof.Machine
end

section
/-! PROOFS. Faults, halting and the collaborators (60_exceptions.md): when a fetch and a data access fault (R121 to
R123), what a faulting cycle leaves and that halting is for good (R124, R86), the host's run against the cycles (R137),
and what the collaborators' turn can reach (R134, R135). -/

namespace Sys2Proof.Machine

/-! ### When a fetch faults (R121, R122) -/

theorem State.fetchWord_misaligned {s : State} {a : Word} (h : a.toNat % 4 ≠ 0) :
    s.fetchWord a = .error (.fetchMisaligned a) := if_pos (mt (bits_low_two_zero a).1 h)

theorem State.fetchWord_unpopulated {s : State} {a : Word} (halign : a.toNat % 4 = 0)
    (hword : Memory.wordAt? s.imem a.toNat = none) : s.fetchWord a = .error (.fetchOutOfRange a) := by
  rw [State.fetchWord, if_neg (not_not.2 ((bits_low_two_zero a).2 halign)), hword]

theorem State.fetchWord_error_cases {s : State} {a : Word} {r : Fault} (h : s.fetchWord a = .error r) :
    (r = .fetchMisaligned a ∧ a.toNat % 4 ≠ 0) ∨
    (r = .fetchOutOfRange a ∧ a.toNat % 4 = 0 ∧ Memory.wordAt? s.imem a.toNat = none) := by
  by_cases halign : a.toNat % 4 = 0
  · cases hword : Memory.wordAt? s.imem a.toNat with
    | some w => cases ((s.fetchWord_ok a w).2 ⟨(bits_low_two_zero a).2 halign, hword⟩).symm.trans h
    | none => exact .inr ⟨Except.error.inj (h.symm.trans (State.fetchWord_unpopulated halign hword)), halign, rfl⟩
  · exact .inl ⟨Except.error.inj (h.symm.trans (State.fetchWord_misaligned halign)), halign⟩

/-! ### When a data access faults (R123) -/

theorem State.memRead_error {s : State} {a : Word} {r : Fault} (h : s.memRead a = .error r) :
    r = .dataOutOfRange a ∧ s.dmemWords ≤ wordIndex a := by
  rcases Nat.lt_or_ge (wordIndex a) s.dmemWords with hrange | hrange
  · cases (s.memRead_inRange a hrange).symm.trans h
  · exact ⟨Except.error.inj (h.symm.trans (s.memRead_outOfRange a hrange)), hrange⟩

theorem State.memWrite_error {s : State} {a v : Word} {r : Fault} (h : s.memWrite a v = .error r) :
    r = .dataOutOfRange a ∧ s.dmemWords ≤ wordIndex a := by
  rcases Nat.lt_or_ge (wordIndex a) s.dmemWords with hrange | hrange
  · cases (s.memWrite_inRange a v hrange).symm.trans h
  · exact ⟨Except.error.inj (h.symm.trans (s.memWrite_outOfRange a v hrange)), hrange⟩

/-- Step 7 faults only where memory-write is asserted (R80). -/
theorem State.storeStep_error {s : State} {g : Signals} {r : Fault} (h : s.storeStep g = .error r) :
    g.ctl.memWrite = true ∧ r = .dataOutOfRange g.res ∧ s.dmemWords ≤ wordIndex g.res := by
  unfold State.storeStep at h
  split at h
  next hwe => exact ⟨hwe, State.memWrite_error h⟩
  next => cases h

/-- Step 8 faults only where the result comes from memory (R80). -/
theorem State.resultStep_error {s : State} {g : Signals} {r : Fault} (h : s.resultStep g = .error r) :
    g.ctl.resultSrc = .memory ∧ r = .dataOutOfRange g.res ∧ s.dmemWords ≤ wordIndex g.res := by
  unfold State.resultStep at h
  split at h
  next hsrc => exact ⟨hsrc, State.memRead_error h⟩
  next => cases h

theorem State.storeStep_dmemWords {s s7 : State} {g : Signals} (h : s.storeStep g = .ok s7) :
    s7.dmemWords = s.dmemWords := by
  rcases State.storeStep_ok h with ⟨-, rfl⟩ | ⟨-, rfl⟩ <;> rfl

/-- Steps 2 to 11 fault in step 7 of a store or in step 8 of a load, and record the ALU result. -/
theorem State.datapath_fault {s : State} {w : Word} {r : Fault} (h : s.datapath w = .fault r) :
    (opcodeOf w = Config.opcLw ∨ opcodeOf w = Config.opcSw) ∧
      r = .dataOutOfRange (s.signals w).res ∧ s.dmemWords ≤ wordIndex (s.signals w).res := by
  rcases attempt_fault _ _ r h with hstore | ⟨s7, hstore, h⟩
  · obtain ⟨hwe, hfault⟩ := State.storeStep_error hstore
    exact ⟨.inr ((memWrite_iff _).1 hwe), hfault⟩
  · rcases attempt_fault _ _ r h with hresult | ⟨wb, -, h⟩
    · obtain ⟨hsrc, hfault⟩ := State.resultStep_error hresult
      exact ⟨.inl ((resultSrc_iff _).1 hsrc), State.storeStep_dmemWords hstore ▸ hfault⟩
    · cases h

/-! ### The host's run (R137) -/

/-- The host's run ends in the state of as many cycles, or stops at the fault with which those cycles halt. -/
theorem core_run_cases (n : Nat) (s : State) :
    Host.Core.run core n s = .next (cycles n s) ∨
    ∃ r, Host.Core.run core n s = .fault r ∧ (cycles n s).halted = some r := by
  induction n generalizing s with
  | zero => exact .inl rfl
  | succ n ih =>
    rw [cycles_succ]
    cases h : step s with
    | next t =>
      rw [core_run_of_next n s t h, cycle_of_next s t h]
      exact ih t
    | fault r =>
      rw [core_run_of_fault n s r h, cycle_of_fault s r h, cycles_of_halted n _ r (s.hostTurn.halt_halted r)]
      exact .inr ⟨r, rfl, rfl⟩
    | refused r => exact absurd h (step_ne_refused s r)

/-! ### What the collaborators' turn can reach (R134, R135) -/

/-- A data word outside HOST_WRITE_REGION, or beyond DMEM_WORDS, is left alone whatever the collaborators ask for. -/
theorem State.dataWord_hostTurn_outside (s : State) {k : Nat}
    (hk : ¬ (regionHas s.hostWriteRegion k = true ∧ k < s.dmemWords)) : s.hostTurn.dataWord k = s.dataWord k := by
  have hwrite (u : State) (j : Nat) (v : Word) (hregion : regionHas u.hostWriteRegion j = true)
      (hrange : j < u.dmemWords) (hu : SameFixedParts s u ∧ u.dataWord k = s.dataWord k) :
      SameFixedParts s (u.setDataWord j v) ∧ (u.setDataWord j v).dataWord k = s.dataWord k := by
    obtain ⟨hfixed, hword⟩ := hu
    rw [hfixed.hostWriteRegion] at hregion
    rw [hfixed.dmemWords] at hrange
    have hkj : k ≠ j := fun e => hk (e ▸ ⟨hregion, hrange⟩)
    exact ⟨{ hfixed with }, (u.dataWord_setDataWord_other j k v hkj).trans hword⟩
  have hturn := s.hostTurn_keeps _ hwrite (fun _ _ ⟨hfixed, hword⟩ => ⟨{ hfixed with }, hword⟩)
    ⟨SameFixedParts.refl s, rfl⟩
  exact hturn.right

/-! ### A run without what the collaborators ask for (R135) -/

/-- The state with nothing asked for by the collaborators: what is left is the core's own. -/
def State.withoutMoves (s : State) : State := { s with hostInbox := [] }

theorem State.hostTurn_withoutMoves (s : State) : s.withoutMoves.hostTurn = s.withoutMoves :=
  s.withoutMoves.hostTurn_of_no_moves rfl

/-- With an empty region, a turn uses up requests and does nothing else. -/
theorem State.withoutMoves_hostTurn {s : State} (hregion : s.hostWriteRegion = []) :
    s.hostTurn.withoutMoves = s.withoutMoves := by
  have hturn := s.hostTurn_keeps (fun u => u.hostWriteRegion = [] ∧ u.withoutMoves = s.withoutMoves)
    (fun u k v hk _ ⟨hu, _⟩ => ?_) (fun _ _ hu => hu) ⟨hregion, rfl⟩
  · obtain ⟨-, hrest⟩ := hturn
    exact hrest
  · rw [hu, regionHas_nil] at hk
    exact absurd hk Bool.false_ne_true

/-- The outcome with its next state changed. -/
def mapNext (f : State → State) : Host.Outcome State Fault Refusal → Host.Outcome State Fault Refusal
  | .next t => .next (f t)
  | .fault r => .fault r
  | .refused r => .refused r

theorem mapNext_attempt {α : Type} (f : State → State) (e : Except Fault α)
    (k : α → Host.Outcome State Fault Refusal) : mapNext f (attempt e k) = attempt e fun a => mapNext f (k a) := by
  cases e <;> rfl

/-- No instruction reads or writes what the collaborators ask for. -/
theorem exec_withoutMoves (i : Instr) (s : State) :
    exec i s.withoutMoves = mapNext State.withoutMoves (exec i s) := by
  cases i with
  | lw rd rs1 imm =>
    simp only [exec, execLw, mapNext_attempt]
    rfl
  | sw rs2 rs1 imm =>
    simp only [exec]
    rcases Nat.lt_or_ge (wordIndex (effectiveAddr (s.readReg rs1) imm)) s.dmemWords with h | h
    · rw [execSw_inRange rs2 rs1 imm s h]
      exact execSw_inRange rs2 rs1 imm s.withoutMoves h
    · rw [execSw_outOfRange rs2 rs1 imm s h]
      exact execSw_outOfRange rs2 rs1 imm s.withoutMoves h
  | beq rs1 rs2 off =>
    simp only [exec, execBeq, apply_ite (mapNext State.withoutMoves)]
    rfl
  | unknown w => rfl
  | add rd rs1 rs2 | sub rd rs1 rs2 | slt rd rs1 rs2 | or rd rs1 rs2 | and rd rs1 rs2 | rdef001 rd rs1 rs2
  | rdef011 rd rs1 rs2 | rdef100 rd rs1 rs2 | rdef101 rd rs1 rs2 => rfl

theorem step_withoutMoves {s : State} (hregion : s.hostWriteRegion = []) :
    step s.withoutMoves = mapNext State.withoutMoves (step s) := by
  cases hh : s.halted with
  | some r => rw [step_of_halted s r hh, step_of_halted s.withoutMoves r hh, mapNext]
  | none =>
    rw [step_of_running s hh, step_of_running s.withoutMoves hh, mapNext_attempt]
    refine congrArg (attempt (s.fetchWord s.pc)) (funext fun w => ?_)
    rw [s.hostTurn_withoutMoves, ← State.withoutMoves_hostTurn hregion, exec_withoutMoves]

theorem cycle_withoutMoves {s : State} (hregion : s.hostWriteRegion = []) :
    cycle s.withoutMoves = (cycle s).withoutMoves := by
  have hstep := step_withoutMoves hregion
  cases h : step s with
  | next t =>
    rw [h, mapNext] at hstep
    rw [cycle_of_next s t h, cycle_of_next _ _ hstep]
  | fault r =>
    rw [h, mapNext] at hstep
    calc cycle s.withoutMoves
      _ = s.withoutMoves.hostTurn.halt r := cycle_of_fault _ r hstep
      _ = s.hostTurn.withoutMoves.halt r := by
        rw [s.hostTurn_withoutMoves, State.withoutMoves_hostTurn hregion]
      _ = (cycle s).withoutMoves := by rw [cycle_of_fault s r h]; rfl
  | refused r => exact absurd h (step_ne_refused s r)

theorem cycles_withoutMoves (n : Nat) {s : State} (hregion : s.hostWriteRegion = []) :
    cycles n s.withoutMoves = (cycles n s).withoutMoves := by
  induction n generalizing s with
  | zero => rfl
  | succ n ih =>
    rw [cycles_succ, cycles_succ, cycle_withoutMoves hregion,
      ih ((cycle_sameFixedParts s).hostWriteRegion.trans hregion)]

/-! ### The obligations -/

/-- Settles O43: the fetch checks alignment before the range, and a running core's step raises what its fetch does. -/
theorem fetchFaultsByAlignmentThenRange : Obligations.FetchFaultsByAlignmentThenRange := by
  intro s hrun
  rw [step_of_running s hrun]
  constructor
  · intro halign
    rw [State.fetchWord_misaligned halign, attempt_error]
  · intro halign hword
    rw [State.fetchWord_unpopulated halign hword, attempt_error]

/-- Settles O44: a step that faults failed in its fetch, or in the eleven-step cycle on the word it fetched, where only
steps 7 and 8 can fault. -/
theorem stepFaultsOnlyAsTheRulesSay : Obligations.StepFaultsOnlyAsTheRulesSay := by
  intro s r h
  obtain ⟨hrun, hfetch | ⟨w, hw, hexec⟩⟩ := step_fault_cases s r h
  · exact ⟨hrun, (State.fetchWord_error_cases hfetch).imp_right .inl⟩
  · rw [← State.datapath_eq_exec] at hexec
    obtain ⟨hopc, hr, hrange⟩ := State.datapath_fault hexec
    exact ⟨hrun, .inr (.inr ⟨w, hw, hopc, hr, s.hostTurn_dmemWords ▸ hrange⟩)⟩

/-- Settles O46: a faulting cycle is the collaborators' turn with the mark set, and a marked core's step and cycles are
the identity. -/
theorem faultCommitsNothingAndHaltsForGood : Obligations.FaultCommitsNothingAndHaltsForGood := by
  constructor
  · intro s r h
    rw [cycle_of_fault s r h]
    exact ⟨s.hostTurn.halt_halted r, s.hostTurn_pc, s.hostTurn_readReg, s.hostTurn.dataWord_halt r, s.hostTurn_imem⟩
  · exact fun s r n h => ⟨step_of_halted s r h, cycles_of_halted n s r h⟩

/-- Settles O47: each of the two ways a run can end contradicts, or is, the outcome each clause names. -/
theorem hostRunAgreesWithCycles : Obligations.HostRunAgreesWithCycles := by
  intro n s
  rcases core_run_cases n s with hrun | ⟨r, hrun, hhalted⟩ <;> rw [hrun]
  · exact ⟨fun _ h => Host.Outcome.next.inj h, nofun, nofun, fun _ => rfl⟩
  · refine ⟨nofun, fun q h => hhalted.trans (congrArg some (Host.Outcome.fault.inj h)), nofun, fun hsafe => ?_⟩
    cases hhalted.symm.trans hsafe

/-- Settles O48: a data word that changed was not outside the region, and a turn touches data memory and the inbox
alone. -/
theorem hostTurnWritesOnlyItsRegion : Obligations.HostTurnWritesOnlyItsRegion :=
  fun s => ⟨fun _ hchanged => of_not_not fun hk => hchanged (s.dataWord_hostTurn_outside hk), s.hostTurn_pc,
    s.hostTurn_regs, s.hostTurn_imem, s.hostTurn_halted, s.hostTurn_dmemWords, s.hostTurn_hostWriteRegion⟩

/-- Settles O50: without what the collaborators ask for the two runs are one run. -/
theorem emptyHostRegionMakesRunsDeterministic : Obligations.EmptyHostRegionMakesRunsDeterministic := by
  intro n s moves hregion
  have hruns : (cycles n { s with hostInbox := moves }).withoutMoves = (cycles n s).withoutMoves :=
    calc (cycles n { s with hostInbox := moves }).withoutMoves
      _ = cycles n s.withoutMoves := (cycles_withoutMoves n (s := { s with hostInbox := moves }) hregion).symm
      _ = (cycles n s).withoutMoves := cycles_withoutMoves n hregion
  exact ⟨(congrArg State.pc hruns :), (congrArg State.regs hruns :), (congrArg State.dmem hruns :),
    (congrArg State.halted hruns :)⟩

end Sys2Proof.Machine
end

section
/-! PROOFS. Reset and hazards (70_reset_and_hazards.md): exactly when a cycle completes (R145(a), R124), the first
instruction executed (R141), and what the reference launch holds (R142). -/

namespace Sys2Proof.Machine

/-! ### When an instruction completes (R145(a), R123) -/

theorem execLw_completes_iff (rd rs1 : RegIdx) (imm : BitVec 12) (s : State) :
    (∃ t, execLw rd rs1 imm s = .next t) ↔ wordIndex (effectiveAddr (s.readReg rs1) imm) < s.dmemWords := by
  constructor
  · rintro ⟨t, ht⟩
    by_contra hrange
    cases ht.symm.trans (execLw_outOfRange rd rs1 imm s (Nat.le_of_not_lt hrange))
  · exact fun hrange => ⟨_, execLw_inRange rd rs1 imm s hrange⟩

theorem execSw_completes_iff (rs2 rs1 : RegIdx) (imm : BitVec 12) (s : State) :
    (∃ t, execSw rs2 rs1 imm s = .next t) ↔ wordIndex (effectiveAddr (s.readReg rs1) imm) < s.dmemWords := by
  constructor
  · rintro ⟨t, ht⟩
    by_contra hrange
    cases ht.symm.trans (execSw_outOfRange rs2 rs1 imm s (Nat.le_of_not_lt hrange))
  · exact fun hrange => ⟨_, execSw_inRange rs2 rs1 imm s hrange⟩

/-- Only the data access of a load or a store can keep an instruction from completing. -/
theorem exec_completes_iff (i : Instr) (s : State) : (∃ t, exec i s = .next t) ↔ Instr.accessInRange s i := by
  cases i with
  | lw rd rs1 imm => exact execLw_completes_iff rd rs1 imm s
  | sw rs2 rs1 imm => exact execSw_completes_iff rs2 rs1 imm s
  | beq rs1 rs2 off =>
    refine ⟨fun _ => trivial, fun _ => ?_⟩
    rw [exec, execBeq_eq]
    split <;> exact ⟨_, rfl⟩
  | unknown w => exact ⟨fun _ => trivial, fun _ => ⟨_, rfl⟩⟩
  | add rd rs1 rs2 | sub rd rs1 rs2 | slt rd rs1 rs2 | or rd rs1 rs2 | and rd rs1 rs2 | rdef001 rd rs1 rs2
  | rdef011 rd rs1 rs2 | rdef100 rd rs1 rs2 | rdef101 rd rs1 rs2 => exact ⟨fun _ => trivial, fun _ => ⟨_, rfl⟩⟩

/-! ### What a fetch finds after a launch (R36, R141) -/

/-- A fetch from a launched program gives the last word listed at its address. -/
theorem State.fetchWord_launch {p : Launch} {a w : Word} (halign : a.toNat % 4 = 0)
    (hword : lastListed p.program a.toNat = some w) : (State.launch p).fetchWord a = .ok w :=
  (State.fetchWord_ok _ a w).2
    ⟨(bits_low_two_zero a).2 halign, (Memory.wordAt?_ofCodePairs ⟨halign, a.isLt⟩ p.program).trans hword⟩

/-! ### Listings over listings (R23) -/

/-- A later listing hides an earlier one of the same key. -/
theorem lastListed_append (ps qs : List (Nat × Word)) (k : Nat) :
    lastListed (ps ++ qs) k = (lastListed qs k).or (lastListed ps k) := by
  simp only [lastListed, List.reverse_append, List.find?_append, Option.map_or]

theorem lastListed_eq_none {ps : List (Nat × Word)} {k : Nat} (h : k ∉ ps.map Prod.fst) : lastListed ps k = none := by
  rw [lastListed, Option.map_eq_none_iff, List.find?_eq_none]
  intro c hc hk
  exact h (List.mem_map.2 ⟨c, List.mem_reverse.1 hc, beq_iff_eq.1 hk⟩)

/-- A launch's instruction memory is unchanged at an address that the words added to its program do not list. -/
theorem Memory.wordAt?_ofCodePairs_append {ps qs : List (Nat × Word)} {a : Nat} (h : a ∉ qs.map Prod.fst) :
    Memory.wordAt? (Memory.ofCodePairs (ps ++ qs)) a = Memory.wordAt? (Memory.ofCodePairs ps) a := by
  by_cases ha : isCodeAddress a
  · rw [Memory.wordAt?_ofCodePairs ha, Memory.wordAt?_ofCodePairs ha, lastListed_append, lastListed_eq_none h,
      Option.none_or]
  · rw [Memory.wordAt?_of_not_code (Memory.wfCode_ofCodePairs _) ha,
      Memory.wordAt?_of_not_code (Memory.wfCode_ofCodePairs _) ha]

/-! ### The reference launch (R142) -/

theorem referenceProgram_addresses (third : AndOrChoice) :
    (referenceProgram third).map Prod.fst = [0x1000, 0x1004, 0x1008, 0x100C] := rfl

/-- The words of the reference program as numbers, but for the one the source leaves open (D2, D3; logs 1, 2, 24). -/
theorem referenceProgram_words (third : AndOrChoice) : referenceProgram third =
    [(0x1000, 0xFFC4A303), (0x1004, 0x0064A023), (0x1008, encode third.instr), (0x100C, 0xFE0208E3)] := rfl

/-- The four addresses are aligned and distinct, so each lists its own word. -/
theorem lastListed_referenceProgram (third : AndOrChoice) :
    ∀ c ∈ referenceProgram third, c.1 % 4 = 0 ∧ lastListed (referenceProgram third) c.1 = some c.2 := by
  cases third <;> decide

theorem fetchWord_referenceLaunch {seed : SeedReading} {third : AndOrChoice} {p : Launch} {a w : Word}
    (h : (a.toNat, w) ∈ referenceProgram third) :
    (State.launch (referenceLaunch seed third p)).fetchWord a = .ok w := by
  obtain ⟨halign, hword⟩ := lastListed_referenceProgram third _ h
  refine State.fetchWord_launch halign ?_
  rw [referenceLaunch_program, lastListed_append, hword, Option.some_or]

theorem wordAt?_referenceLaunch_other (seed : SeedReading) (third : AndOrChoice) (p : Launch) {a : Nat}
    (ha : a ∉ [0x1000, 0x1004, 0x1008, 0x100C]) :
    Memory.wordAt? (State.launch (referenceLaunch seed third p)).imem a = Memory.wordAt? (State.launch p).imem a := by
  rw [← referenceProgram_addresses third] at ha
  exact Memory.wordAt?_ofCodePairs_append ha

/-- The seed is stored last, where DMEM_WORDS takes it in (C1). -/
theorem dmem_referenceLaunch (seed : SeedReading) (third : AndOrChoice) (p : Launch) :
    (State.launch (referenceLaunch seed third p)).dmem =
      if seed.index < p.dmemWords then Memory.store (State.launch p).dmem seed.index 10 else (State.launch p).dmem :=
  Memory.ofDataPairs_append_one p.dmemWords p.dmemInit (seed.index, 10)

theorem dataWord_referenceLaunch_seed (seed : SeedReading) (third : AndOrChoice) {p : Launch}
    (h : seed.index < p.dmemWords) : (State.launch (referenceLaunch seed third p)).dataWord seed.index = 10 := by
  rw [State.dataWord, dmem_referenceLaunch, if_pos h, Memory.read_store_same]

theorem dataWord_referenceLaunch_other {seed : SeedReading} {k : Nat} (third : AndOrChoice) (p : Launch)
    (hk : k ≠ seed.index) :
    (State.launch (referenceLaunch seed third p)).dataWord k = (State.launch p).dataWord k := by
  rw [State.dataWord, dmem_referenceLaunch]
  split
  · exact Memory.read_store_other _ _ k _ hk
  · rfl

/-! ### The obligations -/

/-- Settles O39: a running core's step completes as the instruction it fetched does, and that completes exactly when
its data access is in range (D6, D7, D8; logs 11 to 13). -/
theorem stepCompletesExactlyWhenReady : Obligations.StepCompletesExactlyWhenReady := by
  intro s hrun
  constructor
  · rintro ⟨t, ht⟩
    rcases step_next_cases s t ht with ⟨r, hr, -⟩ | ⟨w, hw, he⟩
    · cases hrun.symm.trans hr
    · exact ⟨decode w, ⟨w, hw, rfl⟩, (exec_completes_iff _ _).1 ⟨t, he⟩⟩
  · rintro ⟨i, hi, hrange⟩
    rw [step_of_executes hi]
    exact (exec_completes_iff i _).2 hrange

/-- Settles O58: the seed and the program are listed after everything of the launch they are built over, so they stand,
and every other word is as that launch leaves it. -/
theorem referenceLaunchHoldsTheSeedState : Obligations.ReferenceLaunchHoldsTheSeedState := by
  rintro seed third p s rfl
  refine ⟨rfl, withReferenceRegs_five _, withReferenceRegs_nine _, withReferenceRegs_other _, ?seedByByte, ?seedByWord,
    fun k => dataWord_referenceLaunch_other third p, fetchWord_referenceLaunch ?load, fetchWord_referenceLaunch ?store,
    ?orOp, ?andOp, fetchWord_referenceLaunch ?branch,
    fun _ => wordAt?_referenceLaunch_other seed third p, rfl⟩
  case seedByByte =>
    rintro rfl
    exact dataWord_referenceLaunch_seed .byteAddress third
  case seedByWord =>
    rintro rfl
    exact dataWord_referenceLaunch_seed .wordIndex third
  case load => simp [referenceProgram_words]
  case store => simp [referenceProgram_words]
  case orOp =>
    rintro rfl
    exact fetchWord_referenceLaunch (by decide)
  case andOp =>
    rintro rfl
    exact fetchWord_referenceLaunch (by decide)
  case branch => simp [referenceProgram_words]

/-- Settles O52: the fetch at the reset vector gives the last word listed there, and with no collaborator move it runs
at the launch state itself. -/
theorem firstCycleRunsTheResetVectorWord : Obligations.FirstCycleRunsTheResetVectorWord := by
  intro p w hmoves halign hfind
  have hword : lastListed p.program p.resetVector.toNat = some w := congrArg (Option.map Prod.snd) hfind
  have hturn : (State.launch p).hostTurn = State.launch p := State.hostTurn_of_no_moves _ hmoves
  have hfetch : (State.launch p).fetches w :=
    (State.fetches_iff _ w).2 ⟨rfl, State.fetchWord_launch halign hword⟩
  rw [step_of_fetches _ w hfetch, hturn]

end Sys2Proof.Machine
end

section
/-! PROOFS. The words that the spec spells out (95_test_vectors.md T1, T3 and P1; 42_rtype_alu.md R103, R104): each is
decoded by the rule of its opcode. -/

namespace Sys2Proof.Machine

/-- Settles O6: the opcode of each word picks its rule of first-level decode, the register-register table for the nine
words with that opcode (R60, R61), and the fields in the rule are those of the word. -/
theorem specWordsDecodeAsNamed : Obligations.SpecWordsDecodeAsNamed := by
  refine ⟨?lw, ?sw, ?add, ?sub, ?slt, ?or, ?and, ?rdef001, ?rdef011, ?rdef100, ?rdef101, ?beq, ?unknown⟩
  case lw => exact decode_of_opcLw _ (by decide)
  case sw => exact decode_of_opcSw _ (by decide)
  case beq => exact decode_of_opcBeq _ (by decide)
  case unknown => exact decode_of_other _ (by decide)
  case add | sub | slt | or | and | rdef001 | rdef011 | rdef100 | rdef101 => exact decode_eq_regRegInstr (by decide)

end Sys2Proof.Machine
end
